-- ==== Sys2Proof/Word.lean ====
section
/-! DEFINITION. The widths of the core's data: every value is an unsigned number of a stated width
(spec 00_scope.md R7, R8; 10_state.md R20). -/

namespace Sys2Proof

/-- The 8-bit addressable unit, also the width of `V0`..`VF`, `DT` and `ST` (R20, R50). -/
abbrev Byte := BitVec 8

/-- The 16-bit instruction word, also the width of `I`, `PC` and a stack slot (R20, R70). -/
abbrev Word := BitVec 16

/-- The 12-bit `nnn` operand (R72). -/
abbrev Addr := BitVec 12

/-- One of the four 4-bit fields of an instruction word (R71). -/
abbrev Nibble := BitVec 4

/-- The number of a general register: `V0` is 0, `VF` is 15 (R21). -/
abbrev Reg := Fin 16

/-- The number of a key of the input latch, `0x0`..`0xF` (R31). -/
abbrev Key := Fin 16

end Sys2Proof
end

