-- ==== Sys2Proof/Syntax.lean ====
section
/-! DEFINITION. The 34 instructions of spec 30_encoding.md R75, one constructor per row of
spec/opcode_table.json, in the table's order. Operands are the fields of R72. -/

namespace Sys2Proof

/-- An instruction with its operand fields. A constructor is named after its row's mnemonic; the
docstring gives the source's pattern, its label and the rule of its meaning. -/
inductive Instr where
  /-- `00E0`, CLS (R151). -/
  | cls
  /-- `00EE`, RET (R101). -/
  | ret
  /-- `1nnn`, JP nnn (R102). -/
  | jpNnn (nnn : Addr)
  /-- `2nnn`, CALL nnn (R103). -/
  | callNnn (nnn : Addr)
  /-- `3xkk`, SE Vx, kk (R104). -/
  | seVxKk (x : Reg) (kk : Byte)
  /-- `4xkk`, SNE Vx, kk (R105). -/
  | sneVxKk (x : Reg) (kk : Byte)
  /-- `5xy0`, SE Vx, Vy (R106). -/
  | seVxVy (x y : Reg)
  /-- `6xkk`, LD Vx, kk (R122). -/
  | ldVxKk (x : Reg) (kk : Byte)
  /-- `7xkk`, ADD Vx, kk (R123). -/
  | addVxKk (x : Reg) (kk : Byte)
  /-- `8xy0`, LD Vx, Vy (R124). -/
  | ldVxVy (x y : Reg)
  /-- `8xy1`, OR Vx, Vy (R125). -/
  | orVxVy (x y : Reg)
  /-- `8xy2`, AND Vx, Vy (R126). -/
  | andVxVy (x y : Reg)
  /-- `8xy3`, XOR Vx, Vy (R127). -/
  | xorVxVy (x y : Reg)
  /-- `8xy4`, ADD Vx, Vy (R128). -/
  | addVxVy (x y : Reg)
  /-- `8xy5`, SUB Vx, Vy (R129). -/
  | subVxVy (x y : Reg)
  /-- `8xy6`, SHR Vx (R130). The `y` field is encoded and takes any value, but is not read (R75). -/
  | shrVx (x y : Reg)
  /-- `8xy7`, SUBN Vx, Vy (R131). -/
  | subnVxVy (x y : Reg)
  /-- `8xyE`, SHL Vx (R132). The `y` field is encoded and takes any value, but is not read (R75). -/
  | shlVx (x y : Reg)
  /-- `9xy0`, SNE Vx, Vy (R107). -/
  | sneVxVy (x y : Reg)
  /-- `Annn`, LD I, nnn (R141). -/
  | ldINnn (nnn : Addr)
  /-- `Bnnn`, JP V0, nnn (R108). -/
  | jpV0Nnn (nnn : Addr)
  /-- `Cxkk`, RND Vx, kk (R133). -/
  | rndVxKk (x : Reg) (kk : Byte)
  /-- `Dxyn`, DRW Vx, Vy, n (R152): `n` is the number of sprite rows, 0..15. -/
  | drwVxVyN (x y : Reg) (n : Fin 16)
  /-- `Ex9E`, SKP Vx (R161). -/
  | skpVx (x : Reg)
  /-- `ExA1`, SKNP Vx (R162). -/
  | sknpVx (x : Reg)
  /-- `Fx07`, LD Vx, DT (R163). -/
  | ldVxDt (x : Reg)
  /-- `Fx0A`, LD Vx, K (R164). -/
  | ldVxK (x : Reg)
  /-- `Fx15`, LD DT, Vx (R165). -/
  | ldDtVx (x : Reg)
  /-- `Fx18`, LD ST, Vx (R166). -/
  | ldStVx (x : Reg)
  /-- `Fx1E`, ADD I, Vx (R142). -/
  | addIVx (x : Reg)
  /-- `Fx29`, LD F, Vx (R143). -/
  | ldFVx (x : Reg)
  /-- `Fx33`, LD B, Vx (R144). -/
  | ldBVx (x : Reg)
  /-- `Fx55`, LD [I], Vx (R145). -/
  | ldImemVx (x : Reg)
  /-- `Fx65`, LD Vx, [I] (R146). -/
  | ldVxImem (x : Reg)
  deriving DecidableEq, Repr

end Sys2Proof
end

