-- ==== Sys2Proof/Config.lean ====
section
/-! DEFINITION. What is fixed for the machine (spec 00_scope.md R5) and the one value the spec leaves
free: the random byte (R6, R133). The font bytes, which the spec also makes configuration (R53), are
`Sys2Proof.Machine.fontTable` in Machine/Font.lean, where a later repair may mend them. -/

namespace Sys2Proof.Config

/-- MEM_SIZE (R5): addresses 0x000 to 0xFFF. -/
abbrev memSize : Nat := 4096

/-- FONT_BASE (R5). -/
abbrev fontBase : Nat := 0x000

/-- FONT_SIZE (R5): 16 glyphs of 5 bytes. -/
abbrev fontSize : Nat := 80

/-- The bytes of one glyph (R5, R143). -/
abbrev glyphSize : Nat := 5

/-- PROG_ORIGIN (R5): where the image is loaded and where `PC` starts. -/
abbrev progOrigin : Nat := 0x200

/-- PROG_MAX (R5): the longest image that fits. -/
abbrev progMax : Nat := 3584

/-- STACK_DEPTH (R5). -/
abbrev stackDepth : Nat := 16

/-- DISPLAY_W (R5): columns. -/
abbrev displayW : Nat := 64

/-- DISPLAY_H (R5): rows. -/
abbrev displayH : Nat := 32

/-- The random byte of the k-th execution of `Cxkk` (R133: "any value 0..255, a free input of this
step"). It has no body, so nothing can be proved of its value: a claim holds for every sequence of
draws (assumption log 3). -/
opaque draw : Nat → Byte

end Sys2Proof.Config
end

