-- ==== Sys2Proof/WellFormed.lean ====
section
/-! DEFINITION. Well-formedness of what the machine is given: an instruction, and the byte sequences
the host hands to `load` and `reset`. -/

namespace Sys2Proof

/-- An instruction is well formed when each operand fits its field (spec 30_encoding.md R72). The type
of every operand is exactly its field's range (`Reg` is 0..15, `Byte` is 0..255, `Addr` is 0..0xFFF),
so an ill-formed instruction cannot be written at all, and no operand value is reserved (R78: "a word
is one of the 34 instructions or it faults"). -/
def Instr.wf : Instr → Bool
  | .cls | .ret => true
  | .jpNnn _ | .callNnn _ | .ldINnn _ | .jpV0Nnn _ => true
  | .seVxKk _ _ | .sneVxKk _ _ | .ldVxKk _ _ | .addVxKk _ _ | .rndVxKk _ _ => true
  | .seVxVy _ _ | .sneVxVy _ _ | .ldVxVy _ _ | .orVxVy _ _ | .andVxVy _ _ | .xorVxVy _ _ => true
  | .addVxVy _ _ | .subVxVy _ _ | .shrVx _ _ | .subnVxVy _ _ | .shlVx _ _ => true
  | .drwVxVyN _ _ _ => true
  | .skpVx _ | .sknpVx _ | .ldVxDt _ | .ldVxK _ | .ldDtVx _ | .ldStVx _ => true
  | .addIVx _ | .ldFVx _ | .ldBVx _ | .ldImemVx _ | .ldVxImem _ => true

/-- A byte sequence of length `len` may be loaded at `address`: it does not pass 0xFFF
(spec 60_exceptions.md R188). -/
def loadFits (address len : Nat) : Bool := decide (address + len ≤ Config.memSize)

/-- A program image fits the memory above the program origin (spec 60_exceptions.md R176: "the limit
is 3584 bytes"). -/
def imageFits (image : List Byte) : Bool := decide (image.length ≤ Config.progMax)

/-- A font table has one byte for each byte of the font region (spec 20_memory.md R53). -/
def fontFits (font : List Byte) : Bool := decide (font.length = Config.fontSize)

end Sys2Proof
end

