-- ==== Sys2Proof/Decode.lean ====
section
/-! DEFINITION. Decoding (spec 30_encoding.md R70 to R78), total on any bytes and rejecting by name, and
after it the encoder, written from the format table R71 and the opcode map R75. -/

namespace Sys2Proof

/-! ## Fields (R7, R71) -/

/-- The top nibble `op[15:12]`. -/
def topNibble (op : Word) : Nibble := op.extractLsb' 12 4

/-- The field `x = op[11:8]`. -/
def fieldX (op : Word) : Reg := (op.extractLsb' 8 4).toFin

/-- The field `y = op[7:4]`. -/
def fieldY (op : Word) : Reg := (op.extractLsb' 4 4).toFin

/-- The field `n = op[3:0]`, as a count of rows. -/
def fieldN (op : Word) : Fin 16 := (op.extractLsb' 0 4).toFin

/-- The low nibble `op[3:0]`, as a sub-opcode. -/
def lowNibble (op : Word) : Nibble := op.extractLsb' 0 4

/-- The field `kk = op[7:0]`, also the sub-opcode byte of the X format. -/
def fieldKk (op : Word) : Byte := op.extractLsb' 0 8

/-- The field `nnn = op[11:0]`. -/
def fieldNnn (op : Word) : Addr := op.extractLsb' 0 12

/-! ## The decoder (R74, R76) -/

/-- Why bytes are not an instruction. -/
inductive DecodeError where
  /-- The word matches no row of R75: a decode miss (R76). -/
  | unknownOpcode (op : Word)
  /-- Fewer than the two bytes every instruction has (R70). Fetch from memory never gives this. -/
  | truncated
  deriving DecidableEq, Repr

/-- Top nibble 0x0: the whole word is literal (R74, R77). -/
def decodeFamily0 (op : Word) : Except DecodeError Instr :=
  if op = 0x00E0#16 then .ok .cls
  else if op = 0x00EE#16 then .ok .ret
  else .error (.unknownOpcode op)

/-- Top nibble 0x5: `5xy0` only (R74, R77). -/
def decodeFamily5 (op : Word) : Except DecodeError Instr :=
  if lowNibble op = 0x0#4 then .ok (.seVxVy (fieldX op) (fieldY op))
  else .error (.unknownOpcode op)

/-- Top nibble 0x8: the low nibble selects the operation (R74). -/
def decodeFamily8 (op : Word) : Except DecodeError Instr :=
  let x := fieldX op
  let y := fieldY op
  if lowNibble op = 0x0#4 then .ok (.ldVxVy x y)
  else if lowNibble op = 0x1#4 then .ok (.orVxVy x y)
  else if lowNibble op = 0x2#4 then .ok (.andVxVy x y)
  else if lowNibble op = 0x3#4 then .ok (.xorVxVy x y)
  else if lowNibble op = 0x4#4 then .ok (.addVxVy x y)
  else if lowNibble op = 0x5#4 then .ok (.subVxVy x y)
  else if lowNibble op = 0x6#4 then .ok (.shrVx x y)
  else if lowNibble op = 0x7#4 then .ok (.subnVxVy x y)
  else if lowNibble op = 0xE#4 then .ok (.shlVx x y)
  else .error (.unknownOpcode op)

/-- Top nibble 0x9: `9xy0` only (R74, R77). -/
def decodeFamily9 (op : Word) : Except DecodeError Instr :=
  if lowNibble op = 0x0#4 then .ok (.sneVxVy (fieldX op) (fieldY op))
  else .error (.unknownOpcode op)

/-- Top nibble 0xE: the low byte selects the operation (R74). -/
def decodeFamilyE (op : Word) : Except DecodeError Instr :=
  if fieldKk op = 0x9E#8 then .ok (.skpVx (fieldX op))
  else if fieldKk op = 0xA1#8 then .ok (.sknpVx (fieldX op))
  else .error (.unknownOpcode op)

/-- Top nibble 0xF: the low byte selects the operation (R74). -/
def decodeFamilyF (op : Word) : Except DecodeError Instr :=
  let x := fieldX op
  if fieldKk op = 0x07#8 then .ok (.ldVxDt x)
  else if fieldKk op = 0x0A#8 then .ok (.ldVxK x)
  else if fieldKk op = 0x15#8 then .ok (.ldDtVx x)
  else if fieldKk op = 0x18#8 then .ok (.ldStVx x)
  else if fieldKk op = 0x1E#8 then .ok (.addIVx x)
  else if fieldKk op = 0x29#8 then .ok (.ldFVx x)
  else if fieldKk op = 0x33#8 then .ok (.ldBVx x)
  else if fieldKk op = 0x55#8 then .ok (.ldImemVx x)
  else if fieldKk op = 0x65#8 then .ok (.ldVxImem x)
  else .error (.unknownOpcode op)

/-- The decode procedure of R74 on one instruction word: it depends on the word alone (R73). -/
def decodeWord (op : Word) : Except DecodeError Instr :=
  match (topNibble op).toNat with
  | 0x0 => decodeFamily0 op
  | 0x1 => .ok (.jpNnn (fieldNnn op))
  | 0x2 => .ok (.callNnn (fieldNnn op))
  | 0x3 => .ok (.seVxKk (fieldX op) (fieldKk op))
  | 0x4 => .ok (.sneVxKk (fieldX op) (fieldKk op))
  | 0x5 => decodeFamily5 op
  | 0x6 => .ok (.ldVxKk (fieldX op) (fieldKk op))
  | 0x7 => .ok (.addVxKk (fieldX op) (fieldKk op))
  | 0x8 => decodeFamily8 op
  | 0x9 => decodeFamily9 op
  | 0xA => .ok (.ldINnn (fieldNnn op))
  | 0xB => .ok (.jpV0Nnn (fieldNnn op))
  | 0xC => .ok (.rndVxKk (fieldX op) (fieldKk op))
  | 0xD => .ok (.drwVxVyN (fieldX op) (fieldY op) (fieldN op))
  | 0xE => decodeFamilyE op
  | _ => decodeFamilyF op

/-! ## Bytes (R54) -/

/-- "`high_byte << 8 | low_byte`": the byte at the lower address is the high byte (R54, R70). -/
def wordOfBytes (hi lo : Byte) : Word := hi ++ lo

/-- The high byte of a word, stored at the lower address (R54). -/
def highByte (op : Word) : Byte := op.extractLsb' 8 8

/-- The low byte of a word (R54). -/
def lowByte (op : Word) : Byte := op.extractLsb' 0 8

/-- The two bytes of a word in memory order (R54). -/
def wordBytes (op : Word) : List Byte := [highByte op, lowByte op]

/-- Decoding any bytes: the first instruction and the bytes after it. Every instruction is two bytes
(R70); there is no prefix and no other length (R79). -/
def decodeBytes : List Byte → Except DecodeError (Instr × List Byte)
  | hi :: lo :: rest =>
    match decodeWord (wordOfBytes hi lo) with
    | .ok i => .ok (i, rest)
    | .error e => .error e
  | _ => .error .truncated

/-- The instruction the decoder reads from the word `w` of spec/opcode_table.json, whose bit 0 is the
word's least significant bit. Every row has 16 bits, so `nbits` is always 16. -/
def decodeTableWord (_nbits w : Nat) : Option Instr :=
  match decodeBytes (wordBytes (BitVec.ofNat 16 w)) with
  | .ok (i, _) => some i
  | .error _ => none

/-! ## The encoder (R71, R75) -/

/-- Format NNN (R71). -/
def formatNnn (top : Nibble) (nnn : Addr) : Word := top ++ nnn

/-- Format XKK (R71). -/
def formatXkk (top : Nibble) (x : Reg) (kk : Byte) : Word := top ++ BitVec.ofFin (w := 4) x ++ kk

/-- Formats XY, with a literal low nibble, and XYN, with the field n there (R71). -/
def formatXyn (top : Nibble) (x y : Reg) (low : Nibble) : Word :=
  top ++ BitVec.ofFin (w := 4) x ++ BitVec.ofFin (w := 4) y ++ low

/-- The word of an instruction (R75): format X is XKK with the sub-opcode as its low byte. -/
def encode : Instr → Word
  | .cls => 0x00E0#16
  | .ret => 0x00EE#16
  | .jpNnn nnn => formatNnn 0x1#4 nnn
  | .callNnn nnn => formatNnn 0x2#4 nnn
  | .seVxKk x kk => formatXkk 0x3#4 x kk
  | .sneVxKk x kk => formatXkk 0x4#4 x kk
  | .seVxVy x y => formatXyn 0x5#4 x y 0x0#4
  | .ldVxKk x kk => formatXkk 0x6#4 x kk
  | .addVxKk x kk => formatXkk 0x7#4 x kk
  | .ldVxVy x y => formatXyn 0x8#4 x y 0x0#4
  | .orVxVy x y => formatXyn 0x8#4 x y 0x1#4
  | .andVxVy x y => formatXyn 0x8#4 x y 0x2#4
  | .xorVxVy x y => formatXyn 0x8#4 x y 0x3#4
  | .addVxVy x y => formatXyn 0x8#4 x y 0x4#4
  | .subVxVy x y => formatXyn 0x8#4 x y 0x5#4
  | .shrVx x y => formatXyn 0x8#4 x y 0x6#4
  | .subnVxVy x y => formatXyn 0x8#4 x y 0x7#4
  | .shlVx x y => formatXyn 0x8#4 x y 0xE#4
  | .sneVxVy x y => formatXyn 0x9#4 x y 0x0#4
  | .ldINnn nnn => formatNnn 0xA#4 nnn
  | .jpV0Nnn nnn => formatNnn 0xB#4 nnn
  | .rndVxKk x kk => formatXkk 0xC#4 x kk
  | .drwVxVyN x y n => formatXyn 0xD#4 x y (BitVec.ofFin (w := 4) n)
  | .skpVx x => formatXkk 0xE#4 x 0x9E#8
  | .sknpVx x => formatXkk 0xE#4 x 0xA1#8
  | .ldVxDt x => formatXkk 0xF#4 x 0x07#8
  | .ldVxK x => formatXkk 0xF#4 x 0x0A#8
  | .ldDtVx x => formatXkk 0xF#4 x 0x15#8
  | .ldStVx x => formatXkk 0xF#4 x 0x18#8
  | .addIVx x => formatXkk 0xF#4 x 0x1E#8
  | .ldFVx x => formatXkk 0xF#4 x 0x29#8
  | .ldBVx x => formatXkk 0xF#4 x 0x33#8
  | .ldImemVx x => formatXkk 0xF#4 x 0x55#8
  | .ldVxImem x => formatXkk 0xF#4 x 0x65#8

/-! ## The opcode map as mask and match (R75)

A second reading of R75, independent of the decoder: the map's own mask and match columns. -/

/-- The mask column of R75. -/
def maskOf : Instr → Word
  | .cls | .ret => 0xFFFF#16
  | .jpNnn _ | .callNnn _ | .ldINnn _ | .jpV0Nnn _ => 0xF000#16
  | .seVxKk _ _ | .sneVxKk _ _ | .ldVxKk _ _ | .addVxKk _ _ | .rndVxKk _ _ => 0xF000#16
  | .drwVxVyN _ _ _ => 0xF000#16
  | .seVxVy _ _ | .sneVxVy _ _ | .ldVxVy _ _ | .orVxVy _ _ | .andVxVy _ _ | .xorVxVy _ _ => 0xF00F#16
  | .addVxVy _ _ | .subVxVy _ _ | .shrVx _ _ | .subnVxVy _ _ | .shlVx _ _ => 0xF00F#16
  | .skpVx _ | .sknpVx _ | .ldVxDt _ | .ldVxK _ | .ldDtVx _ | .ldStVx _ => 0xF0FF#16
  | .addIVx _ | .ldFVx _ | .ldBVx _ | .ldImemVx _ | .ldVxImem _ => 0xF0FF#16

/-- The match column of R75. -/
def matchOf : Instr → Word
  | .cls => 0x00E0#16
  | .ret => 0x00EE#16
  | .jpNnn _ => 0x1000#16
  | .callNnn _ => 0x2000#16
  | .seVxKk _ _ => 0x3000#16
  | .sneVxKk _ _ => 0x4000#16
  | .seVxVy _ _ => 0x5000#16
  | .ldVxKk _ _ => 0x6000#16
  | .addVxKk _ _ => 0x7000#16
  | .ldVxVy _ _ => 0x8000#16
  | .orVxVy _ _ => 0x8001#16
  | .andVxVy _ _ => 0x8002#16
  | .xorVxVy _ _ => 0x8003#16
  | .addVxVy _ _ => 0x8004#16
  | .subVxVy _ _ => 0x8005#16
  | .shrVx _ _ => 0x8006#16
  | .subnVxVy _ _ => 0x8007#16
  | .shlVx _ _ => 0x800E#16
  | .sneVxVy _ _ => 0x9000#16
  | .ldINnn _ => 0xA000#16
  | .jpV0Nnn _ => 0xB000#16
  | .rndVxKk _ _ => 0xC000#16
  | .drwVxVyN _ _ _ => 0xD000#16
  | .skpVx _ => 0xE09E#16
  | .sknpVx _ => 0xE0A1#16
  | .ldVxDt _ => 0xF007#16
  | .ldVxK _ => 0xF00A#16
  | .ldDtVx _ => 0xF015#16
  | .ldStVx _ => 0xF018#16
  | .addIVx _ => 0xF01E#16
  | .ldFVx _ => 0xF029#16
  | .ldBVx _ => 0xF033#16
  | .ldImemVx _ => 0xF055#16
  | .ldVxImem _ => 0xF065#16

/-- The (mask, match) rows of R75, in the source's order. -/
def opcodeRows : List (Word × Word) :=
  [(0xFFFF, 0x00E0), (0xFFFF, 0x00EE), (0xF000, 0x1000), (0xF000, 0x2000), (0xF000, 0x3000),
   (0xF000, 0x4000), (0xF00F, 0x5000), (0xF000, 0x6000), (0xF000, 0x7000)] ++
  [(0xF00F, 0x8000), (0xF00F, 0x8001), (0xF00F, 0x8002), (0xF00F, 0x8003), (0xF00F, 0x8004),
   (0xF00F, 0x8005), (0xF00F, 0x8006), (0xF00F, 0x8007), (0xF00F, 0x800E), (0xF00F, 0x9000)] ++
  [(0xF000, 0xA000), (0xF000, 0xB000), (0xF000, 0xC000), (0xF000, 0xD000), (0xF0FF, 0xE09E),
   (0xF0FF, 0xE0A1)] ++
  [(0xF0FF, 0xF007), (0xF0FF, 0xF00A), (0xF0FF, 0xF015), (0xF0FF, 0xF018), (0xF0FF, 0xF01E),
   (0xF0FF, 0xF029), (0xF0FF, 0xF033), (0xF0FF, 0xF055), (0xF0FF, 0xF065)]

end Sys2Proof
end

