-- ==== Sys2Proof/Machine/State.lean ====
section
/-! DEFINITION. The whole state of the core (spec 10_state.md R20), the reasons a step can stop, and the
state right after reset (R38, R200). -/

namespace Sys2Proof.Machine

/-- `MEM` as (address, byte) pairs, addresses strictly rising, no entry equal to what an unlisted
address reads as (`backgroundByte` in Ops.lean: the reset contents of R38). Addresses are below 4096. -/
abbrev Memory := List Host.Cell

/-- `FB`: 32 rows of 64 one-bit pixels (R29, R150). Row `py` and column `px` are read by
`Framebuffer.pixel`; the storage order is not architectural. -/
abbrev Framebuffer := Vector (Vector Bool 64) 32

/-- `KEY[0..15]` (R31): true is pressed. -/
abbrev KeyLatch := Vector Bool 16

/-- The causes of R170. -/
inductive FaultCause where
  /-- Code 1: the fetched word matches no row of R75 (R173). -/
  | decodeFault
  /-- Code 2: `2nnn` with `SP` = 16 (R174). -/
  | stackOverflow
  /-- Code 3: `00EE` with `SP` = 0 (R175). -/
  | stackUnderflow
  /-- Code 4: a `load` that passes 0xFFF (R176). -/
  | loadFault
  deriving DecidableEq, Repr

/-- The record `(cause, opcode, pc)` of R32. -/
structure FaultRecord where
  cause : FaultCause
  opcode : Word
  pc : Word
  deriving DecidableEq, Repr

/-- The complete state of R20, and the model's own draw counter. -/
structure State where
  /-- `V0`..`VF`; `VF` is `V[15]` (R21, R22). -/
  v : Vector Byte 16
  /-- `I` (R23). -/
  i : Word
  /-- `PC` (R24): the full 16 bits, reduced modulo 4096 only at fetch. -/
  pc : Word
  /-- `STACK[0..15]` (R26). -/
  stack : Vector Word 16
  /-- `SP`, the number of return addresses on the stack, 0..16 (R27). -/
  sp : Fin 17
  /-- `DT` (R28). -/
  dt : Byte
  /-- `ST` (R28). -/
  st : Byte
  /-- `FB` (R29). -/
  fb : Framebuffer
  /-- `DIRTY` (R30). -/
  dirty : Bool
  /-- `KEY` (R31). -/
  key : KeyLatch
  /-- `FAULT` (R32): `none`, or the record of the fault that halted the core. -/
  fault : Option FaultRecord
  /-- `MEM` (R33, R50). -/
  mem : Memory
  /-- The MODEL's own field, not the spec's: how many draws `Cxkk` has consumed, so that each execution
  reads a fresh `Config.draw` (R34 (a), R133; assumption log 3). -/
  draws : Nat
  deriving DecidableEq, Repr

/-- A reason for the machine to stop. There is none: a fault of R170 is not a stop of the model but a
NEXT state in which `FAULT` is written (R171), and a step of a halted core changes nothing (R172). So
nothing raises one, and no run of the model ends here. -/
inductive Fault where
  deriving DecidableEq, Repr

/-- A reason for the model to give an instruction no meaning. -/
inductive Refusal where
  /-- Raised by an arm of `exec` whose instruction has no meaning yet. Safe: a run stops there. No arm
  of this model raises it. -/
  | notModelled (mnemonic : String)
  deriving DecidableEq, Repr

/-- The state right after reset (R38, R200) with the font of `backgroundByte` installed and an empty
program image: every register, slot, timer, pixel, flag and key 0, `PC` = 0x0200, `FAULT` none, and no
memory byte different from its reset content. -/
def State.reset : State where
  v := Vector.replicate 16 0
  i := 0
  pc := 0x0200
  stack := Vector.replicate 16 0
  sp := 0
  dt := 0
  st := 0
  fb := Vector.replicate 32 (Vector.replicate 64 false)
  dirty := false
  key := Vector.replicate 16 false
  fault := none
  mem := []
  draws := 0

end Sys2Proof.Machine
end

