-- ==== Sys2Proof/Machine/Ops.lean ====
section
/-! DEFINITION. The named operations over the state: memory (spec 20_memory.md), registers, the program
counter, the stack, the framebuffer, and taking a fault (60_exceptions.md R171). Everything an
instruction does to the state is said here once. -/

namespace Sys2Proof.Machine

/-! ## Memory (R51, R57) -/

/-- What an address that memory does not list reads as: its reset content with an empty image, the font
at 0x000 to 0x04F and 0 everywhere else (R38). -/
def backgroundByte (a : Nat) : Byte :=
  if a < Config.fontBase + Config.fontSize then fontTable.getD (a - Config.fontBase) 0 else 0

/-- The byte held for exactly the address `a`. -/
def lookupCell (a : Nat) : Memory → Byte
  | [] => backgroundByte a
  | (b, w) :: m => if a = b then w else lookupCell a m

/-- Put `v` at the head of the cells above `a`, unless it is what `a` reads as unlisted. -/
def consCell (a : Nat) (v : Byte) (m : Memory) : Memory :=
  if v = backgroundByte a then m else (a, v) :: m

/-- Memory with the byte of exactly the address `a` replaced, in canonical form. -/
def storeCell (a : Nat) (v : Byte) : Memory → Memory
  | [] => consCell a v []
  | (b, w) :: m =>
    if a < b then consCell a v ((b, w) :: m)
    else if a = b then consCell a v m
    else (b, w) :: storeCell a v m

/-- `MemRead(addr, 1)` (R51): every address is reduced modulo 4096, so no read faults. -/
def Memory.read (m : Memory) (addr : Nat) : Byte := lookupCell (addr % Config.memSize) m

/-- `MemWrite(addr, 1, v)` (R51): every address is reduced modulo 4096, so no write faults. -/
def Memory.write (m : Memory) (addr : Nat) (v : Byte) : Memory :=
  storeCell (addr % Config.memSize) v m

/-- Bytes written at ascending addresses from `addr`, each address reduced by itself (R55). -/
def Memory.writeBytes (m : Memory) (addr : Nat) : List Byte → Memory
  | [] => m
  | v :: vs => Memory.writeBytes (m.write addr v) (addr + 1) vs

/-- The cells lie at rising addresses from `lo` on, inside memory, none equal to its background. -/
def wellPlaced (lo : Nat) : Memory → Bool
  | [] => true
  | (a, v) :: m =>
    decide (lo ≤ a) && decide (a < Config.memSize) && decide (v ≠ backgroundByte a) &&
      wellPlaced (a + 1) m

/-- Memory is in canonical form, so that equal memories are equal data. -/
def Memory.wf (m : Memory) : Bool := wellPlaced 0 m

/-- The byte an instruction reads at `addr` (R51). -/
def State.readByte (s : State) (addr : Nat) : Byte := s.mem.read addr

/-- The state with bytes stored at ascending addresses from `addr` (R51, R55). -/
def State.storeBytes (s : State) (addr : Nat) (bytes : List Byte) : State :=
  { s with mem := s.mem.writeBytes addr bytes }

/-- The word at `PC` (R54, R70): the two addresses are reduced modulo 4096 separately. -/
def State.fetchWord (s : State) : Word :=
  wordOfBytes (s.readByte s.pc.toNat) (s.readByte (s.pc.toNat + 1))

/-! ## General registers (R21) -/

/-- `V[x]`. -/
def State.reg (s : State) (x : Reg) : Byte := s.v[x.val]

/-- `V[x] <- b`. No register is hardwired (R21). -/
def State.setReg (s : State) (x : Reg) (b : Byte) : State := { s with v := s.v.set x.val b }

/-- The number of `VF` (R22). -/
def vf : Reg := 15

/-- `I <- w` (R23). -/
def State.setI (s : State) (w : Word) : State := { s with i := w }

/-- `DT <- b` (R28). -/
def State.setDt (s : State) (b : Byte) : State := { s with dt := b }

/-- `ST <- b` (R28). -/
def State.setSt (s : State) (b : Byte) : State := { s with st := b }

/-! ## Program counter (R25): every addition is modulo 2^16 -/

/-- "+2": `PC <- (PC + 2) mod 65536` (R25 (a)). -/
def State.advance (s : State) : State := { s with pc := s.pc + 2 }

/-- A skip instruction's advance: +4 where the condition holds and +2 where it does not (R25 (b)). -/
def State.skipIf (s : State) (c : Bool) : State := { s with pc := s.pc + if c then 4 else 2 }

/-- `PC <- target`, as it is: not checked for alignment or range (R24, R100 (d)). -/
def State.jump (s : State) (target : Word) : State := { s with pc := target }

/-! ## Call stack (R26, R27) -/

/-- `STACK[SP] <- ret; SP <- SP + 1`, or none where the stack is full (R103). -/
def State.push (s : State) (ret : Word) : Option State :=
  if h : s.sp.val < 16 then
    some { s with stack := s.stack.set s.sp.val ret, sp := ⟨s.sp.val + 1, by omega⟩ }
  else none

/-- `SP <- SP - 1` and the value of the slot vacated, which is not cleared; none where the stack is
empty (R101). -/
def State.pop (s : State) : Option (Word × State) :=
  if h : s.sp.val = 0 then none
  else some (s.stack[s.sp.val - 1], { s with sp := ⟨s.sp.val - 1, by omega⟩ })

/-! ## Framebuffer (R29, R150) -/

/-- `FB[px mod 64][py mod 32]`: the reduction is applied to each pixel's coordinate (R150). -/
def Framebuffer.pixel (fb : Framebuffer) (px py : Nat) : Bool :=
  (fb[py % 32]'(Nat.mod_lt _ (by decide)))[px % 64]'(Nat.mod_lt _ (by decide))

/-- `FB[px mod 64][py mod 32]` exclusive-or 1 (R29: a pixel is only ever toggled). -/
def Framebuffer.toggle (fb : Framebuffer) (px py : Nat) : Framebuffer :=
  fb.set (py % 32)
    ((fb[py % 32]'(Nat.mod_lt _ (by decide))).set (px % 64) (!fb.pixel px py)
      (Nat.mod_lt _ (by decide)))
    (Nat.mod_lt _ (by decide))

/-- All 2048 pixels 0. -/
def Framebuffer.blank : Framebuffer := Vector.replicate 32 (Vector.replicate 64 false)

/-! ## Input latch (R31) -/

/-- `KEY[k]`. -/
def State.keyDown (s : State) (k : Key) : Bool := s.key[k.val]

/-! ## Faults (R171, R172, R181, R182) -/

/-- The core is halted: `FAULT` is not none (R172). -/
def State.halted (s : State) : Bool := s.fault.isSome

/-- `raise <cause>(op, PC)`, taking a fault: `FAULT` is written and nothing else changes; there is no
handler, no saved register and no mode (R171, R181). `FAULT` keeps its first value (R172). There is no
return from a fault beside it: nothing but reset leaves the halted state (R182). -/
def State.raise (s : State) (cause : FaultCause) (op : Word) : State :=
  match s.fault with
  | none => { s with fault := some { cause := cause, opcode := op, pc := s.pc } }
  | some _ => s

/-- The step whose fetched word matches no row of R75 (R173, R184). -/
def State.raiseDecodeFault (s : State) : State := s.raise .decodeFault s.fetchWord

end Sys2Proof.Machine
end

