-- ==== Sys2Proof/Machine/Flags.lean ====
section
/-! DEFINITION. Flag computations (spec 41_alu.md R120, R121). `VF` is the only flag (10_state.md R22). -/

namespace Sys2Proof.Machine

/-- A flag as the byte written to `VF`: 1 or 0 (R22). -/
def flagByte (c : Bool) : Byte := if c then 1 else 0

/-- Carry out of bit 7: the unclamped sum exceeds 255 (R128). -/
def carryOut (a b : Byte) : Bool := decide (255 < a.toNat + b.toNat)

/-- No borrow in `a - b`: `a >= b` (R129, R131). -/
def noBorrow (a b : Byte) : Bool := decide (b.toNat ≤ a.toNat)

/-- The bit a right shift moves out (R130). -/
def bitOutRight (a : Byte) : Bool := a.getLsbD 0

/-- The bit a left shift moves out (R132). -/
def bitOutLeft (a : Byte) : Bool := a.getLsbD 7

/-- `V[15] <- flag`. -/
def State.setFlag (s : State) (c : Bool) : State := s.setReg vf (flagByte c)

/-- The result to `V[x]` and then the flag to `V[15]`, so that with x = 0xF the flag is what `VF` holds
afterwards (R121). -/
def State.setRegThenFlag (s : State) (x : Reg) (result : Byte) (c : Bool) : State :=
  (s.setReg x result).setFlag c

end Sys2Proof.Machine
end

