-- ==== Sys2Proof/Machine/Operands.lean ====
section
/-! DEFINITION. Operand forms (spec 30_encoding.md R72, 42_index_memory.md R140, 44_keys_timers.md R160):
how each kind of operand field and each implicit operand is turned into a value. A register operand is
`State.reg`; `kk` and `n` are used as they stand. -/

namespace Sys2Proof.Machine

/-- `nnn` where it meets a 16-bit register: zero-extended (R72). -/
def addrOperand (nnn : Addr) : Word := nnn.setWidth 16

/-- `nnn + V[0]`, at most 0x10FE, not reduced to 12 bits (R108). -/
def indexedTarget (nnn : Addr) (v0 : Byte) : Word := BitVec.ofNat 16 (nnn.toNat + v0.toNat)

/-- `I + offset`, the one addressing mode for data: reduced modulo 4096 by each access (R140). -/
def State.dataAddr (s : State) (offset : Nat) : Nat := s.i.toNat + offset

/-- `(I + V[x]) mod 4096` (R142). -/
def maskedIndexSum (i : Word) (b : Byte) : Word := BitVec.ofNat 16 ((i.toNat + b.toNat) % 4096)

/-- `font base + V[x] * 5`, of the whole 8-bit value (R143). -/
def glyphAddr (b : Byte) : Word := BitVec.ofNat 16 (Config.fontBase + b.toNat * Config.glyphSize)

/-- The key a register selects: its low nibble (R160). -/
def keyIndex (b : Byte) : Key := ⟨b.toNat % 16, Nat.mod_lt _ (by decide)⟩

/-- The sixteen register or key numbers in rising order. -/
def allSixteen : List (Fin 16) := [0, 1, 2, 3, 4, 5, 6, 7] ++ [8, 9, 10, 11, 12, 13, 14, 15]

/-- The registers `V0`..`Vx` inclusive, in rising order (R145, R146). -/
def regsUpTo (x : Reg) : List Reg := allSixteen.take (x.val + 1)

/-- The lowest-numbered pressed key, if any key is pressed (R164). -/
def State.lowestKey (s : State) : Option Key := allSixteen.find? s.keyDown

/-- The three decimal digits of a byte, hundreds first, each a whole byte (R144). -/
def bcdDigits (b : Byte) : List Byte :=
  [BitVec.ofNat 8 (b.toNat / 100), BitVec.ofNat 8 (b.toNat / 10 % 10), BitVec.ofNat 8 (b.toNat % 10)]

end Sys2Proof.Machine
end

