-- ==== Sys2Proof/Machine/Alu.lean ====
section
/-! DEFINITION. The meanings of the register, arithmetic, logic and random instructions (spec 41_alu.md R120
to R133). Operands are read from the state at the start of the step; the flag is written last (R121). -/

namespace Sys2Proof.Machine

/-- `6xkk` LD Vx, kk (R122). -/
def execLdVxKk (x : Reg) (kk : Byte) (s : State) : Host.Outcome State Fault Refusal :=
  .next (s.setReg x kk).advance

/-- `7xkk` ADD Vx, kk (R123): wraps modulo 256 and leaves `VF` alone. -/
def execAddVxKk (x : Reg) (kk : Byte) (s : State) : Host.Outcome State Fault Refusal :=
  .next (s.setReg x (s.reg x + kk)).advance

/-- `8xy0` LD Vx, Vy (R124). -/
def execLdVxVy (x y : Reg) (s : State) : Host.Outcome State Fault Refusal :=
  .next (s.setReg x (s.reg y)).advance

/-- `8xy1` OR Vx, Vy (R125): `VF` is not written. -/
def execOrVxVy (x y : Reg) (s : State) : Host.Outcome State Fault Refusal :=
  .next (s.setReg x (s.reg x ||| s.reg y)).advance

/-- `8xy2` AND Vx, Vy (R126): `VF` is not written. -/
def execAndVxVy (x y : Reg) (s : State) : Host.Outcome State Fault Refusal :=
  .next (s.setReg x (s.reg x &&& s.reg y)).advance

/-- `8xy3` XOR Vx, Vy (R127): `VF` is not written. -/
def execXorVxVy (x y : Reg) (s : State) : Host.Outcome State Fault Refusal :=
  .next (s.setReg x (s.reg x ^^^ s.reg y)).advance

/-- `8xy4` ADD Vx, Vy (R128). -/
def execAddVxVy (x y : Reg) (s : State) : Host.Outcome State Fault Refusal :=
  .next (s.setRegThenFlag x (s.reg x + s.reg y) (carryOut (s.reg x) (s.reg y))).advance

/-- `8xy5` SUB Vx, Vy (R129). -/
def execSubVxVy (x y : Reg) (s : State) : Host.Outcome State Fault Refusal :=
  .next (s.setRegThenFlag x (s.reg x - s.reg y) (noBorrow (s.reg x) (s.reg y))).advance

/-- `8xy6` SHR Vx (R130): `Vy` is neither read nor written, whatever `y` is. -/
def execShrVx (x _y : Reg) (s : State) : Host.Outcome State Fault Refusal :=
  .next (s.setRegThenFlag x (s.reg x >>> 1) (bitOutRight (s.reg x))).advance

/-- `8xy7` SUBN Vx, Vy (R131). -/
def execSubnVxVy (x y : Reg) (s : State) : Host.Outcome State Fault Refusal :=
  .next (s.setRegThenFlag x (s.reg y - s.reg x) (noBorrow (s.reg y) (s.reg x))).advance

/-- `8xyE` SHL Vx (R132): `Vy` is neither read nor written, whatever `y` is. -/
def execShlVx (x _y : Reg) (s : State) : Host.Outcome State Fault Refusal :=
  .next (s.setRegThenFlag x (s.reg x <<< 1) (bitOutLeft (s.reg x))).advance

/-- `draw8()`: the next draw, a free value (R133; assumption log 3). -/
def State.nextDraw (s : State) : Byte := Config.draw s.draws

/-- The state that has consumed a draw, so that the next one is another. -/
def State.drawTaken (s : State) : State := { s with draws := s.draws + 1 }

/-- `Cxkk` RND Vx, kk (R133): the random byte is a free value, so nothing is known of the result but
that it has no bit `kk` lacks. -/
def execRndVxKk (x : Reg) (kk : Byte) (s : State) : Host.Outcome State Fault Refusal :=
  .next (s.drawTaken.setReg x (s.nextDraw &&& kk)).advance

end Sys2Proof.Machine
end

