-- ==== Sys2Proof/Machine/Control.lean ====
section
/-! DEFINITION. The meanings of the control transfer instructions (spec 40_control_flow.md R100 to R108). -/

namespace Sys2Proof.Machine

/-- `00EE` RET (R101): the popped value as it stands, no extra +2; `StackUnderflow` where `SP` = 0. -/
def execRet (s : State) : Host.Outcome State Fault Refusal :=
  match s.pop with
  | some (ret, t) => .next (t.jump ret)
  | none => .next (s.raise .stackUnderflow (encode .ret))

/-- `1nnn` JP nnn (R102). -/
def execJpNnn (nnn : Addr) (s : State) : Host.Outcome State Fault Refusal :=
  .next (s.jump (addrOperand nnn))

/-- `2nnn` CALL nnn (R103): the pushed value is `PC + 2` modulo 2^16; `StackOverflow` where `SP` = 16,
checked before any write. -/
def execCallNnn (nnn : Addr) (s : State) : Host.Outcome State Fault Refusal :=
  match s.push (s.pc + 2) with
  | some t => .next (t.jump (addrOperand nnn))
  | none => .next (s.raise .stackOverflow (encode (.callNnn nnn)))

/-- `3xkk` SE Vx, kk (R104). -/
def execSeVxKk (x : Reg) (kk : Byte) (s : State) : Host.Outcome State Fault Refusal :=
  .next (s.skipIf (decide (s.reg x = kk)))

/-- `4xkk` SNE Vx, kk (R105). -/
def execSneVxKk (x : Reg) (kk : Byte) (s : State) : Host.Outcome State Fault Refusal :=
  .next (s.skipIf (decide (s.reg x ≠ kk)))

/-- `5xy0` SE Vx, Vy (R106). -/
def execSeVxVy (x y : Reg) (s : State) : Host.Outcome State Fault Refusal :=
  .next (s.skipIf (decide (s.reg x = s.reg y)))

/-- `9xy0` SNE Vx, Vy (R107). -/
def execSneVxVy (x y : Reg) (s : State) : Host.Outcome State Fault Refusal :=
  .next (s.skipIf (decide (s.reg x ≠ s.reg y)))

/-- `Bnnn` JP V0, nnn (R108): always `V[0]`, whatever op[11:8] is. -/
def execJpV0Nnn (nnn : Addr) (s : State) : Host.Outcome State Fault Refusal :=
  .next (s.jump (indexedTarget nnn (s.reg 0)))

end Sys2Proof.Machine
end

