-- ==== Sys2Proof/Machine/Display.lean ====
section
/-! DEFINITION. The meanings of the display instructions and the collision detector (spec 43_display.md
R150 to R153). -/

namespace Sys2Proof.Machine

/-- A draw under way: the framebuffer so far, and the local `hit` of R152, which is not state (R153). -/
structure Blit where
  fb : Framebuffer
  hit : Bool
  deriving DecidableEq, Repr

/-- One sprite bit of 1 at (px, py): a pixel that was set is a hit, and the pixel is toggled (R152). -/
def Blit.plot (b : Blit) (px py : Nat) : Blit :=
  { fb := b.fb.toggle px py, hit := b.hit || b.fb.pixel px py }

/-- Sprite column `c` of a row: bit `7 - c` of its byte, "most significant first" (R150). -/
def spriteBit (row : Byte) (c : Nat) : Bool := row.getLsbD (7 - c)

/-- One sprite row at (x0, py): its eight bits from the left (R152). -/
def Blit.drawRow (b : Blit) (x0 py : Nat) (row : Byte) : Blit :=
  (List.range 8).foldl (fun b c => if spriteBit row c then b.plot (x0 + c) py else b) b

/-- Sprite row `r`, one byte of memory (R150, R152). -/
def State.spriteRow (s : State) (r : Nat) : Byte := s.readByte (s.dataAddr r)

/-- The `n` sprite rows at (x0, y0), in order, from `hit` = 0 (R152). -/
def State.drawSprite (s : State) (x0 y0 n : Nat) : Blit :=
  (List.range n).foldl (fun b r => b.drawRow x0 (y0 + r) (s.spriteRow r)) { fb := s.fb, hit := false }

/-- The framebuffer written, with `DIRTY` set whether or not a pixel changed (R30). -/
def State.showFb (s : State) (fb : Framebuffer) : State := { s with fb := fb, dirty := true }

/-- `00E0` CLS (R151). -/
def execCls (s : State) : Host.Outcome State Fault Refusal :=
  .next (s.showFb Framebuffer.blank).advance

/-- `Dxyn` DRW Vx, Vy, n (R152): the coordinates are read before `VF` is written, and `VF` is always
written. -/
def execDrwVxVyN (x y : Reg) (n : Fin 16) (s : State) : Host.Outcome State Fault Refusal :=
  let b := s.drawSprite (s.reg x).toNat (s.reg y).toNat n.val
  .next ((s.showFb b.fb).setFlag b.hit).advance

end Sys2Proof.Machine
end

