-- ==== Sys2Proof/Machine/IndexMemory.lean ====
section
/-! DEFINITION. The meanings of the index register, load and store instructions (spec 42_index_memory.md
R140 to R146). None of them changes `I` by an access, and every access wraps at 4096 (R140). -/

namespace Sys2Proof.Machine

/-- `Annn` LD I, nnn (R141). -/
def execLdINnn (nnn : Addr) (s : State) : Host.Outcome State Fault Refusal :=
  .next (s.setI (addrOperand nnn)).advance

/-- `Fx1E` ADD I, Vx (R142): masked to 12 bits; `VF` is not written. -/
def execAddIVx (x : Reg) (s : State) : Host.Outcome State Fault Refusal :=
  .next (s.setI (maskedIndexSum s.i (s.reg x))).advance

/-- `Fx29` LD F, Vx (R143). -/
def execLdFVx (x : Reg) (s : State) : Host.Outcome State Fault Refusal :=
  .next (s.setI (glyphAddr (s.reg x))).advance

/-- `Fx33` LD B, Vx (R144): hundreds, tens and ones to `I`, `I + 1` and `I + 2`. -/
def execLdBVx (x : Reg) (s : State) : Host.Outcome State Fault Refusal :=
  .next (s.storeBytes (s.dataAddr 0) (bcdDigits (s.reg x))).advance

/-- `Fx55` LD [I], Vx (R145): `V0`..`Vx` to `I`..`I + x`. -/
def execLdImemVx (x : Reg) (s : State) : Host.Outcome State Fault Refusal :=
  .next (s.storeBytes (s.dataAddr 0) ((regsUpTo x).map s.reg)).advance

/-- `V[i] <- MemRead(I + i, 1)` for each register of the list, in its order (R146). -/
def State.loadRegs (s : State) : List Reg → State
  | [] => s
  | r :: rs => State.loadRegs (s.setReg r (s.readByte (s.dataAddr r.val))) rs

/-- `Fx65` LD Vx, [I] (R146): `I`..`I + x` to `V0`..`Vx`. -/
def execLdVxImem (x : Reg) (s : State) : Host.Outcome State Fault Refusal :=
  .next (s.loadRegs (regsUpTo x)).advance

end Sys2Proof.Machine
end

