-- ==== Sys2Proof/Machine/Step.lean ====
section
/-! DEFINITION. The `step` event (spec 60_exceptions.md R184) and how the host places an instruction where
the next step fetches it. -/

namespace Sys2Proof.Machine

/-- `step` (R184): nothing in the halted state (R172); otherwise fetch, decode and execute exactly one
instruction, a decode miss being a `DecodeFault`. The draw of R184 is `Config.draw`, read by `Cxkk`. -/
def step (s : State) : Host.Outcome State Fault Refusal :=
  if s.halted then .next s
  else
    match decodeWord s.fetchWord with
    | .ok i => exec i s
    | .error _ => .next s.raiseDecodeFault

/-- The state with the 16-bit word `w` at `PC`, high byte first (R54), and not halted, so that the very
next step fetches and runs it. It stands for the load of a program (assumption log 5). -/
def State.withFetchWord (s : State) (_nbits w : Nat) : State :=
  { s.storeBytes s.pc.toNat (wordBytes (BitVec.ofNat 16 w)) with fault := none }

end Sys2Proof.Machine
end

