-- ==== Sys2Proof/Machine/Events.lean ====
section
/-! DEFINITION. The host's events and reads (spec 60_exceptions.md R178, R185 to R188; 70_reset_and_hazards.md
R200): the tick, the input latch, the display, loads, the reset of a run, the fault report. -/

namespace Sys2Proof.Machine

/-- One timer's decrement: "decrementing a zero timer is a no-op" (R28, R186). -/
def decay (t : Byte) : Byte := if t = 0 then 0 else t - 1

/-- `tick` (R186): each timer by itself; nothing in the halted state (R172). -/
def tick (s : State) : State :=
  if s.halted then s else { s with dt := decay s.dt, st := decay s.st }

/-- `set_keys(k)` (R185): all 16 bits at once, halted or not (R172). -/
def setKeys (k : KeyLatch) (s : State) : State := { s with key := k }

/-- What `display` returns (R187). -/
structure DisplayView where
  pixels : Framebuffer
  dirty : Bool
  deriving DecidableEq, Repr

/-- The value `display` returns (R187). -/
def displayView (s : State) : DisplayView := { pixels := s.fb, dirty := s.dirty }

/-- The effect of `display`: "reading clears the dirty flag" (R187), halted or not (R172). -/
def display (s : State) : State := { s with dirty := false }

/-- `load(address, bytes)` (R188), issued only before the first step (R62): a range that would pass
0xFFF is refused whole with `LoadFault`, whose record is (4, 0, 0x0200). -/
def load (address : Word) (bytes : List Byte) (s : State) : State :=
  if loadFits address.toNat bytes.length then s.storeBytes address.toNat bytes
  else match s.fault with
    | none => { s with fault := some { cause := .loadFault, opcode := 0, pc := 0x0200 } }
    | some _ => s

/-- `reset(FONT, image)` (R200): everything zero and `PC` = 0x0200, then the font and the image loaded.
The zero state and `State.reset` differ only in the font region, which the first load writes whole. -/
def resetWith (font : Vector Byte 80) (image : List Byte) : State :=
  load 0x0200 image (load 0x0000 font.toList State.reset)

/-- The numeric codes of R170. -/
def causeCode : FaultCause → Nat
  | .decodeFault => 1
  | .stackOverflow => 2
  | .stackUnderflow => 3
  | .loadFault => 4

/-- The diagnostic report of a halted core (R178): the record and the register state at the point of
failure. -/
structure FaultReport where
  code : Nat
  opcode : Word
  faultPc : Word
  v : Vector Byte 16
  i : Word
  pc : Word
  sp : Fin 17
  stack : Vector Word 16
  dt : Byte
  st : Byte
  deriving DecidableEq, Repr

/-- The report the core presents to the host, or none where it is not halted (R178). -/
def faultReport (s : State) : Option FaultReport :=
  match s.fault with
  | none => none
  | some f => some
      { code := causeCode f.cause, opcode := f.opcode, faultPc := f.pc, v := s.v, i := s.i, pc := s.pc,
        sp := s.sp, stack := s.stack, dt := s.dt, st := s.st }

end Sys2Proof.Machine
end

