-- ==== Sys2Proof/Machine/Schedule.lean ====
section
/-! DEFINITION. Schedules (spec 00_scope.md R12; 20_memory.md R63): the events the host may issue during a
run, one at a time and in any order, each atomic. -/

namespace Sys2Proof.Machine

/-- An event of a run (R12, R37). `load` and `reset` are not among them: they come before the first
step (R62, R200). -/
inductive Event where
  /-- The engine executes one instruction (R184). -/
  | step
  /-- The timer unit decrements the timers (R186). -/
  | tick
  /-- The host overwrites the input latch (R185). -/
  | setKeys (k : KeyLatch)
  /-- The host reads the display (R187). -/
  | display
  deriving DecidableEq, Repr

/-- The effect of one event. -/
def applyEvent (e : Event) (s : State) : Host.Outcome State Fault Refusal :=
  match e with
  | .step => step s
  | .tick => .next (tick s)
  | .setKeys k => .next (setKeys k s)
  | .display => .next (display s)

/-- A schedule of events, each run to completion before the next begins (R63). -/
def runEvents : List Event → State → Host.Outcome State Fault Refusal
  | [], s => .next s
  | e :: es, s =>
    match applyEvent e s with
    | .next t => runEvents es t
    | .fault r => .fault r
    | .refused r => .refused r

end Sys2Proof.Machine
end

