-- ==== Sys2Proof/Safety.lean ====
section
/-! DEFINITION. What the claims are stated in: words written as the spec's patterns, the terms of spec
70_reset_and_hazards.md R212, which instruction may write what (10_state.md R22, R36), the pixels a
sprite covers (43_display.md R150, R152), and the invariant every event keeps. -/

namespace Sys2Proof

/-! ## Words written as patterns (R7, R71): four hexadecimal digits, as numbers -/

/-- The word `tnnn`. -/
def patternNnn (t : Nat) (nnn : Addr) : Word := BitVec.ofNat 16 (t * 0x1000 + nnn.toNat)

/-- The word `txkk`, also a word `txab` with a literal low byte. -/
def patternXkk (t : Nat) (x : Reg) (kk : Byte) : Word :=
  BitVec.ofNat 16 (t * 0x1000 + x.val * 0x100 + kk.toNat)

/-- The word `txyn`, also a word `txya` with a literal low digit. -/
def patternXyn (t : Nat) (x y : Reg) (n : Nat) : Word :=
  BitVec.ofNat 16 (t * 0x1000 + x.val * 0x100 + y.val * 0x10 + n)

/-- The illegal words of the table of R76, by top nibble. -/
def illegalWord (w : Word) : Bool :=
  let t := w.toNat / 0x1000
  let n := w.toNat % 0x10
  let kk := w.toNat % 0x100
  (t == 0x0 && w.toNat != 0x00E0 && w.toNat != 0x00EE) ||
  (t == 0x5 && n != 0) ||
  (t == 0x8 && [0x8, 0x9, 0xA, 0xB, 0xC, 0xD, 0xF].contains n) ||
  (t == 0x9 && n != 0) ||
  (t == 0xE && !([0x9E, 0xA1].contains kk)) ||
  (t == 0xF && !([0x07, 0x0A, 0x15, 0x18, 0x1E, 0x29, 0x33, 0x55, 0x65].contains kk))

/-- Two instructions are of one row of R75. -/
def sameRow (i j : Instr) : Prop := maskOf i = maskOf j ∧ matchOf i = matchOf j

/-! ## Which instruction may write what (R20, R22, R36) -/

namespace Instr

/-- The general registers an instruction may write: its destination, and `VF` where it defines `VF` as
a flag (R22); none for the others. -/
def regsWritten : Instr → List Reg
  | .ldVxKk x _ | .addVxKk x _ | .ldVxVy x _ | .orVxVy x _ | .andVxVy x _ | .xorVxVy x _ => [x]
  | .rndVxKk x _ | .ldVxDt x | .ldVxK x => [x]
  | .addVxVy x _ | .subVxVy x _ | .shrVx x _ | .subnVxVy x _ | .shlVx x _ => [x, Machine.vf]
  | .drwVxVyN _ _ _ => [Machine.vf]
  | .ldVxImem x => Machine.regsUpTo x
  | .cls | .ret | .jpNnn _ | .callNnn _ | .jpV0Nnn _ | .ldINnn _ => []
  | .seVxKk _ _ | .sneVxKk _ _ | .seVxVy _ _ | .sneVxVy _ _ | .skpVx _ | .sknpVx _ => []
  | .ldDtVx _ | .ldStVx _ | .addIVx _ | .ldFVx _ | .ldBVx _ | .ldImemVx _ => []

/-- The instructions that define `VF` as a flag: "exactly" these six (R22). -/
def definesFlag : Instr → Bool
  | .addVxVy _ _ | .subVxVy _ _ | .shrVx _ _ | .subnVxVy _ _ | .shlVx _ _ | .drwVxVyN _ _ _ => true
  | _ => false

/-- The instructions that write `MEM` (R20). -/
def writesMem : Instr → Bool
  | .ldBVx _ | .ldImemVx _ => true
  | _ => false

/-- The instructions that write `I` (R20). -/
def writesI : Instr → Bool
  | .ldINnn _ | .addIVx _ | .ldFVx _ => true
  | _ => false

/-- The instructions that write `SP` and may raise a fault (R20, R170). -/
def usesStack : Instr → Bool
  | .callNnn _ | .ret => true
  | _ => false

/-- The instructions that write `FB` and `DIRTY` (R20). -/
def writesDisplay : Instr → Bool
  | .cls | .drwVxVyN _ _ _ => true
  | _ => false

/-- The six skip instructions (R25 (b)). -/
def isSkip : Instr → Bool
  | .seVxKk _ _ | .sneVxKk _ _ | .seVxVy _ _ | .sneVxVy _ _ | .skpVx _ | .sknpVx _ => true
  | _ => false

/-- The instructions that redirect `PC` or may hold it: `1nnn`, `2nnn`, `Bnnn`, `00EE` and `Fx0A`
(R25 (c), (d)). -/
def redirectsPc : Instr → Bool
  | .jpNnn _ | .callNnn _ | .jpV0Nnn _ | .ret | .ldVxK _ => true
  | _ => false

end Instr

namespace Machine

/-! ## Frames -/

/-- Every byte of memory reads as before. -/
def sameBytes (s t : State) : Prop := ∀ a : Nat, t.readByte a = s.readByte a

/-- `PC` advanced by `n` from `s` to `t`, modulo 65536 (R25). -/
def pcAdvancedBy (n : Nat) (s t : State) : Prop := t.pc.toNat = (s.pc.toNat + n) % 65536

/-- At most `PC` changed from `s` to `t`. -/
def onlyPc (s t : State) : Prop := t = { s with pc := t.pc } ∧ sameBytes s t

/-- At most `PC` and the registers of `ws` changed from `s` to `t`. -/
def onlyRegs (ws : List Reg) (s t : State) : Prop :=
  t = { s with v := t.v, pc := t.pc } ∧ (∀ r : Reg, r ∉ ws → t.reg r = s.reg r) ∧ sameBytes s t

/-- At most `PC` and `I` changed from `s` to `t`. -/
def onlyIndex (s t : State) : Prop := t = { s with i := t.i, pc := t.pc } ∧ sameBytes s t

/-- At most `PC` and the `n` bytes from `addr` on changed from `s` to `t`, each address reduced modulo
4096 (R51). -/
def onlyBytes (addr n : Nat) (s t : State) : Prop :=
  t = { s with mem := t.mem, pc := t.pc } ∧
  ∀ a : Nat, (∀ k : Nat, k < n → a % 4096 ≠ (addr + k) % 4096) → t.readByte a = s.readByte a

/-! ## Sprites (R150, R152) -/

/-- Screen pixel (px, py) lies under a 1 bit of the `n`-row sprite of `s` drawn at (x0, y0): row `r` is
on screen row `(y0 + r) mod 32`, and bit `7 - c` of its byte on screen column `(x0 + c) mod 64`. -/
def spriteCovers (s : State) (x0 y0 n px py : Nat) : Prop :=
  ∃ r : Nat, r < n ∧ ∃ c : Nat, c < 8 ∧ (s.readByte (s.i.toNat + r)).getLsbD (7 - c) = true ∧
    px = (x0 + c) % 64 ∧ py = (y0 + r) % 32

/-! ## The terms of R212

R212 defines both by `PC`, the word and `KEY`, and does not say whether a halted core counts. That neither term
holds of a halted core is the model's choice (DESIGN CHOICE, assumption log 12). -/

/-- "parked at address a" (R212): `PC` = a and the word there is `1nnn` with nnn = a; and, by the model's
choice, the core is not halted (assumption log 12). -/
def parkedAt (a : Addr) (s : State) : Prop :=
  s.fault = none ∧ s.pc = a.setWidth 16 ∧ decodeWord s.fetchWord = .ok (.jpNnn a)

/-- "waiting at address a" (R212): `PC` = a, the word there is `Fx0A` and `KEY` is all 0; and, by the model's
choice, the core is not halted (assumption log 12). -/
def waitingAt (a : Word) (x : Reg) (s : State) : Prop :=
  s.fault = none ∧ s.pc = a ∧ decodeWord s.fetchWord = .ok (.ldVxK x) ∧
  ∀ k : Key, s.keyDown k = false

/-! ## The invariant -/

/-- A recorded fault tells what happened (R170 to R176): the record names the word at `PC` and `PC`
itself, and its cause's condition holds. -/
def faultExplained (s : State) : Prop :=
  ∀ f : FaultRecord, s.fault = some f →
    f.pc = s.pc ∧
    match f.cause with
    | .decodeFault => f.opcode = s.fetchWord ∧ illegalWord f.opcode = true
    | .stackOverflow => f.opcode = s.fetchWord ∧ f.opcode.toNat / 0x1000 = 2 ∧ s.sp = 16
    | .stackUnderflow => f.opcode = s.fetchWord ∧ f.opcode = 0x00EE ∧ s.sp = 0
    | .loadFault => f.opcode = 0 ∧ f.pc = 0x0200

/-- Memory is in canonical form, `I` is at most 0x0FFF (R23), and a recorded fault is explained. -/
structure Inv (s : State) : Prop where
  memCanonical : s.mem.wf = true
  indexInRange : s.i.toNat < 4096
  faultIsExplained : faultExplained s

end Machine

end Sys2Proof
end

