-- ==== Sys2Proof/Certificates/Slice0/Obligations.lean ====
section
/-! DEFINITION. The statements for the provers. Each docstring names the rule or the section of the spec it
formalises; where it rests on a decision of spec/92_eei_decisions.md or on an entry of the assumption
log, it says so. Words are written as the source's patterns (`patternNnn`, `patternXkk`, `patternXyn`),
and frames with `onlyPc`, `onlyRegs`, `onlyIndex` and `onlyBytes`, all of Safety.lean. -/

open Sys2Proof Sys2Proof.Machine

/-! ## Encoding -/

/-- Decoding the word of an instruction gives that instruction, every operand at every value (30_encoding.md
sections 2 to 4). -/
def Obligations.DecodeOfEncodeIsIdentity : Prop :=
  ∀ i : Instr, decodeWord (encode i) = .ok i

/-- A word that decodes is the word of the instruction it decodes to, so no two words share an instruction
(30_encoding.md sections 2 to 4). For the words `8xy6` and `8xyE` this is the model's choice and not the
spec's: the model keeps the `y` field that the instruction does not read (assumption log 9). -/
def Obligations.EncodeOfDecodeIsIdentity : Prop :=
  ∀ (w : Word) (i : Instr), decodeWord w = .ok i → encode i = w

/-- R75: a word is an instruction's row exactly when mask and match say so; and the `y` field of `8xy6`
and `8xyE` takes any value without being read. -/
def Obligations.DecoderAgreesWithOpcodeMap : Prop :=
  (∀ (w : Word) (i : Instr),
    (∃ j : Instr, decodeWord w = .ok j ∧ sameRow i j) ↔ w &&& maskOf i = matchOf i) ∧
  (∀ i : Instr, (maskOf i, matchOf i) ∈ opcodeRows) ∧
  (∀ (x y y' : Reg) (s : State),
    exec (.shrVx x y) s = exec (.shrVx x y') s ∧ exec (.shlVx x y) s = exec (.shlVx x y') s)

/-- The words no row of R75 matches are exactly those of R76's table, and the decoder refuses each by its
own value (30_encoding.md section 5; the strict reading is decision D11). -/
def Obligations.IllegalWordsAreRefused : Prop :=
  ∀ w : Word,
    (illegalWord w = true → decodeWord w = .error (.unknownOpcode w)) ∧
    (illegalWord w = false → ∃ i : Instr, decodeWord w = .ok i)

/-- Sanity: words of 95_test_vectors.md section 2.1, one or two of each family. -/
def Obligations.TestVectorWordsDecode : Prop :=
  decodeWord 0x00E0 = .ok .cls ∧ decodeWord 0x00EE = .ok .ret ∧
  decodeWord 0x5120 = .ok (.seVxVy 1 2) ∧ decodeWord 0x8127 = .ok (.subnVxVy 1 2) ∧
  decodeWord 0x812E = .ok (.shlVx 1 2) ∧ decodeWord 0xBFFF = .ok (.jpV0Nnn 0xFFF) ∧
  decodeWord 0xD000 = .ok (.drwVxVyN 0 0 0) ∧ decodeWord 0xE1A1 = .ok (.sknpVx 1) ∧
  decodeWord 0xF107 = .ok (.ldVxDt 1) ∧ decodeWord 0xF10A = .ok (.ldVxK 1) ∧
  decodeWord 0x5121 = .error (.unknownOpcode 0x5121) ∧
  decodeWord 0x8128 = .error (.unknownOpcode 0x8128) ∧
  decodeWord 0x0000 = .error (.unknownOpcode 0x0000)

/-! ## The step -/

/-- R70: the fetched word is the two bytes at `PC` and `PC + 1`, high byte first, each address
reduced modulo 4096 by itself, so at `PC mod 4096` = 0xFFF the low byte comes from address 0. -/
def Obligations.FetchIsBigEndianAndWraps : Prop :=
  ∀ s : State,
    s.fetchWord.toNat =
      (s.readByte (s.pc.toNat % 4096)).toNat * 256 + (s.readByte ((s.pc.toNat + 1) % 4096)).toNat ∧
    (s.pc.toNat % 4096 = 0xFFF →
      s.fetchWord.toNat = (s.readByte 0xFFF).toNat * 256 + (s.readByte 0x000).toNat)

/-- The step runs the instruction decoded at `PC` and adds nothing around it; a decode miss writes `FAULT`
and nothing else; a halted core does nothing (60_exceptions.md section 6; the halted clause is decision
D18, the record decision D9). -/
def Obligations.StepRunsDecodedInstruction : Prop :=
  ∀ s : State,
    (∀ i : Instr, s.fault = none → decodeWord s.fetchWord = .ok i → step s = exec i s) ∧
    (∀ e : DecodeError, s.fault = none → decodeWord s.fetchWord = .error e →
      step s =
        .next { s with fault := some { cause := .decodeFault, opcode := s.fetchWord, pc := s.pc } }) ∧
    (∀ f : FaultRecord, s.fault = some f → step s = .next s)

/-- Every step answers a next state, and it faults exactly where the closed taxonomy says: an illegal word,
a call on a full stack, a return on an empty one, each recorded with its word and `PC` and with nothing
else changed (60_exceptions.md sections 1 and 3; the records are decision D9). -/
def Obligations.StepFaultsExactlyWhereTheTaxonomySays : Prop :=
  ∀ s : State, s.fault = none →
    ∃ t : State, step s = .next t ∧
      (illegalWord s.fetchWord = true →
        t = { s with fault := some { cause := .decodeFault, opcode := s.fetchWord, pc := s.pc } }) ∧
      (s.fetchWord.toNat / 0x1000 = 2 → s.sp = 16 →
        t = { s with fault := some { cause := .stackOverflow, opcode := s.fetchWord, pc := s.pc } }) ∧
      (s.fetchWord = 0x00EE → s.sp = 0 →
        t = { s with fault := some { cause := .stackUnderflow, opcode := s.fetchWord, pc := s.pc } }) ∧
      (illegalWord s.fetchWord = false → ¬ (s.fetchWord.toNat / 0x1000 = 2 ∧ s.sp = 16) →
        ¬ (s.fetchWord = 0x00EE ∧ s.sp = 0) → t.fault = none)

/-- A halted core stays halted, under any schedule: `FAULT` keeps its first value, and nothing but the
input latch and the dirty flag can change (60_exceptions.md section 1, decision D18). -/
def Obligations.HaltedCoreKeepsItsFault : Prop :=
  ∀ (es : List Event) (s : State) (f : FaultRecord), s.fault = some f →
    ∃ t : State, runEvents es s = .next t ∧ t = { s with key := t.key, dirty := t.dirty }

/-- What a halted core reports is its record's code, opcode and `PC` and its whole register state
(60_exceptions.md section 1; the codes are decision D9). The spec gives the report no format and speaks of it
only when the core is halted: the form of the record, and that a core that is not halted reports nothing, are
the model's choice (assumption log 10). -/
def Obligations.FaultReportShowsPointOfFailure : Prop :=
  ∀ s : State,
    (s.fault = none → faultReport s = none) ∧
    (∀ f : FaultRecord, s.fault = some f →
      ∃ r : FaultReport, faultReport s = some r ∧
        r.code = (match f.cause with
          | .decodeFault => 1 | .stackOverflow => 2 | .stackUnderflow => 3 | .loadFault => 4) ∧
        r.opcode = f.opcode ∧ r.faultPc = f.pc ∧ r.v = s.v ∧ r.i = s.i ∧ r.pc = s.pc ∧ r.sp = s.sp ∧
        r.stack = s.stack ∧ r.dt = s.dt ∧ r.st = s.st)

/-! ## Who may write what -/

/-- The access matrix of 10_state.md sections 1 and 12: each piece of state other than `V` and `PC` is
written only by the instructions its row names, and no instruction writes `KEY`. The last clause is no row
of the matrix: the draw counter is the model's own field and the model's choice (assumption log 3). -/
def Obligations.OnlyNamedInstructionsWrite : Prop :=
  ∀ (i : Instr) (s t : State), exec i s = .next t →
    t.key = s.key ∧
    (i.writesMem = false → t.mem = s.mem ∧ sameBytes s t) ∧
    (i.writesI = false → t.i = s.i) ∧
    ((∀ nnn : Addr, i ≠ .callNnn nnn) → t.stack = s.stack) ∧
    (i.usesStack = false → t.sp = s.sp ∧ t.fault = s.fault) ∧
    ((∀ x : Reg, i ≠ .ldDtVx x) → t.dt = s.dt) ∧
    ((∀ x : Reg, i ≠ .ldStVx x) → t.st = s.st) ∧
    (i.writesDisplay = false → t.fb = s.fb ∧ t.dirty = s.dirty) ∧
    ((∀ (x : Reg) (kk : Byte), i ≠ .rndVxKk x kk) → t.draws = s.draws)

/-- A general register changes only in an instruction that has it as its destination or defines it as its
flag; the instructions that define `VF` as a flag write 0 or 1 to it (10_state.md section 2; the value
where x = 0xF is decision D4). -/
def Obligations.RegistersChangeOnlyAsNamed : Prop :=
  ∀ (i : Instr) (s t : State), exec i s = .next t →
    (∀ r : Reg, r ∉ i.regsWritten → t.reg r = s.reg r) ∧
    (i.definesFlag = true → t.reg 15 = 0 ∨ t.reg 15 = 1)

/-- How `PC` moves, by class of instruction (10_state.md section 4; the wrap at 65536 is decision D2): +2,
or +2 or +4 for the six skips, or unchanged or +2 for the key wait, or unchanged where the step faults. -/
def Obligations.ProgramCounterMovesByClass : Prop :=
  ∀ (i : Instr) (s t : State), exec i s = .next t →
    (i.isSkip = false → i.redirectsPc = false → pcAdvancedBy 2 s t) ∧
    (i.isSkip = true → pcAdvancedBy 2 s t ∨ pcAdvancedBy 4 s t) ∧
    (∀ x : Reg, i = .ldVxK x → t.pc = s.pc ∨ pcAdvancedBy 2 s t) ∧
    (t.fault ≠ s.fault → t.pc = s.pc)

/-- No instruction reads `ST` or `DIRTY`: two states that differ only there step to states that differ only
there (10_state.md sections 6 and 7; 44_keys_timers.md section 2). -/
def Obligations.NoInstructionReadsSoundTimerOrDirty : Prop :=
  ∀ (s : State) (b : Byte) (d : Bool),
    ∃ t t' : State, step s = .next t ∧ step { s with st := b, dirty := d } = .next t' ∧
      t' = { t with st := t'.st, dirty := t'.dirty }

/-! ## Register, arithmetic and logic instructions -/

/-- R122, R123, R124: LD Vx, kk; ADD Vx, kk; LD Vx, Vy, each with its encoding, its result and its frame;
none raises a fault, and `VF` changes only where it is the destination. -/
def Obligations.LoadAndAddImmediateResults : Prop :=
  ∀ (x y : Reg) (kk : Byte) (s : State),
    decodeWord (patternXkk 0x6 x kk) = .ok (.ldVxKk x kk) ∧
    decodeWord (patternXkk 0x7 x kk) = .ok (.addVxKk x kk) ∧
    decodeWord (patternXyn 0x8 x y 0x0) = .ok (.ldVxVy x y) ∧
    (∃ t : State, exec (.ldVxKk x kk) s = .next t ∧
      t.reg x = kk ∧ pcAdvancedBy 2 s t ∧ onlyRegs [x] s t) ∧
    (∃ t : State, exec (.addVxKk x kk) s = .next t ∧
      (t.reg x).toNat = ((s.reg x).toNat + kk.toNat) % 256 ∧ pcAdvancedBy 2 s t ∧ onlyRegs [x] s t) ∧
    (∃ t : State, exec (.ldVxVy x y) s = .next t ∧
      t.reg x = s.reg y ∧ pcAdvancedBy 2 s t ∧ onlyRegs [x] s t)

/-- R125, R126, R127: OR, AND and XOR, with encoding, result bit by bit, and frame; `VF` is neither
written nor reset. -/
def Obligations.LogicResultsLeaveFlagAlone : Prop :=
  ∀ (x y : Reg) (s : State),
    decodeWord (patternXyn 0x8 x y 0x1) = .ok (.orVxVy x y) ∧
    decodeWord (patternXyn 0x8 x y 0x2) = .ok (.andVxVy x y) ∧
    decodeWord (patternXyn 0x8 x y 0x3) = .ok (.xorVxVy x y) ∧
    (∃ t : State, exec (.orVxVy x y) s = .next t ∧
      (∀ k : Nat, k < 8 → (t.reg x).getLsbD k = ((s.reg x).getLsbD k || (s.reg y).getLsbD k)) ∧
      pcAdvancedBy 2 s t ∧ onlyRegs [x] s t) ∧
    (∃ t : State, exec (.andVxVy x y) s = .next t ∧
      (∀ k : Nat, k < 8 → (t.reg x).getLsbD k = ((s.reg x).getLsbD k && (s.reg y).getLsbD k)) ∧
      pcAdvancedBy 2 s t ∧ onlyRegs [x] s t) ∧
    (∃ t : State, exec (.xorVxVy x y) s = .next t ∧
      (∀ k : Nat, k < 8 → (t.reg x).getLsbD k = ((s.reg x).getLsbD k ^^ (s.reg y).getLsbD k)) ∧
      pcAdvancedBy 2 s t ∧ onlyRegs [x] s t)

/-- ADD Vx, Vy, SUB Vx, Vy and SUBN Vx, Vy: the result modulo 256 in `Vx` and the carry or no-borrow flag
in `VF`; where x = 0xF the flag is what `VF` holds (41_alu.md sections 1 and 2; the order of the two
writes is decision D4). -/
def Obligations.AddSubtractResultsAndFlag : Prop :=
  ∀ (x y : Reg) (s : State),
    decodeWord (patternXyn 0x8 x y 0x4) = .ok (.addVxVy x y) ∧
    decodeWord (patternXyn 0x8 x y 0x5) = .ok (.subVxVy x y) ∧
    decodeWord (patternXyn 0x8 x y 0x7) = .ok (.subnVxVy x y) ∧
    (∃ t : State, exec (.addVxVy x y) s = .next t ∧
      (x ≠ 15 → (t.reg x).toNat = ((s.reg x).toNat + (s.reg y).toNat) % 256) ∧
      t.reg 15 = (if (s.reg x).toNat + (s.reg y).toNat > 255 then 1 else 0) ∧
      pcAdvancedBy 2 s t ∧ onlyRegs [x, 15] s t) ∧
    (∃ t : State, exec (.subVxVy x y) s = .next t ∧
      (x ≠ 15 → (t.reg x).toNat = ((s.reg x).toNat + 256 - (s.reg y).toNat) % 256) ∧
      t.reg 15 = (if (s.reg x).toNat ≥ (s.reg y).toNat then 1 else 0) ∧
      pcAdvancedBy 2 s t ∧ onlyRegs [x, 15] s t) ∧
    (∃ t : State, exec (.subnVxVy x y) s = .next t ∧
      (x ≠ 15 → (t.reg x).toNat = ((s.reg y).toNat + 256 - (s.reg x).toNat) % 256) ∧
      t.reg 15 = (if (s.reg y).toNat ≥ (s.reg x).toNat then 1 else 0) ∧
      pcAdvancedBy 2 s t ∧ onlyRegs [x, 15] s t)

/-- SHR Vx and SHL Vx: a logical shift of `Vx` by one, the bit shifted out in `VF`, `Vy` neither read nor
written (41_alu.md section 2; where x = 0xF the flag stays, decision D4). -/
def Obligations.ShiftResultsAndFlag : Prop :=
  ∀ (x y : Reg) (s : State),
    decodeWord (patternXyn 0x8 x y 0x6) = .ok (.shrVx x y) ∧
    decodeWord (patternXyn 0x8 x y 0xE) = .ok (.shlVx x y) ∧
    (∃ t : State, exec (.shrVx x y) s = .next t ∧
      (x ≠ 15 → (t.reg x).toNat = (s.reg x).toNat / 2) ∧
      (t.reg 15).toNat = (s.reg x).toNat % 2 ∧ pcAdvancedBy 2 s t ∧ onlyRegs [x, 15] s t) ∧
    (∃ t : State, exec (.shlVx x y) s = .next t ∧
      (x ≠ 15 → (t.reg x).toNat = 2 * (s.reg x).toNat % 256) ∧
      (t.reg 15).toNat = (s.reg x).toNat / 128 ∧ pcAdvancedBy 2 s t ∧ onlyRegs [x, 15] s t)

/-- RND Vx, kk: the result has no bit that `kk` lacks; it is the draw masked by `kk`, whatever the draw is,
and the next execution takes the next draw (41_alu.md section 2, decision D8; the counter is the model's
own, assumption log 3). -/
def Obligations.RandomByteIsMasked : Prop :=
  ∀ (x : Reg) (kk : Byte) (s : State),
    decodeWord (patternXkk 0xC x kk) = .ok (.rndVxKk x kk) ∧
    ∃ t : State, exec (.rndVxKk x kk) s = .next t ∧
      t.reg x = Config.draw s.draws &&& kk ∧ t.reg x &&& ~~~kk = 0 ∧ (kk = 0 → t.reg x = 0) ∧
      t.draws = s.draws + 1 ∧ pcAdvancedBy 2 s t ∧
      (∀ r : Reg, r ≠ x → t.reg r = s.reg r) ∧ sameBytes s t ∧
      t = { s with v := t.v, pc := t.pc, draws := t.draws }

/-! ## Control transfer -/

/-- R102: JP nnn sets `PC` to nnn, checked neither for alignment nor for range; a jump to itself leaves
the whole state unchanged. -/
def Obligations.JumpSetsProgramCounter : Prop :=
  ∀ (nnn : Addr) (s : State),
    decodeWord (patternNnn 0x1 nnn) = .ok (.jpNnn nnn) ∧
    ∃ t : State, exec (.jpNnn nnn) s = .next t ∧ t.pc.toNat = nnn.toNat ∧ onlyPc s t ∧
      (s.pc.toNat = nnn.toNat → t = s)

/-- JP V0, nnn sets `PC` to the sum of nnn and `V0`, not reduced to 12 bits (40_control_flow.md section 2,
decision D2). -/
def Obligations.IndexedJumpAddsRegisterZero : Prop :=
  ∀ (nnn : Addr) (s : State),
    decodeWord (patternNnn 0xB nnn) = .ok (.jpV0Nnn nnn) ∧
    ∃ t : State, exec (.jpV0Nnn nnn) s = .next t ∧
      t.pc.toNat = nnn.toNat + (s.reg 0).toNat ∧ onlyPc s t

/-- CALL nnn: below depth sixteen it stores `PC + 2` in slot `SP`, adds one to `SP` and jumps; at depth
sixteen it records `StackOverflow` and changes nothing else (40_control_flow.md section 2; the slot
layout is decision D10, the record decision D9). -/
def Obligations.CallPushesOrOverflows : Prop :=
  ∀ (nnn : Addr) (s : State),
    decodeWord (patternNnn 0x2 nnn) = .ok (.callNnn nnn) ∧
    (s.sp.val < 16 → ∃ t : State, exec (.callNnn nnn) s = .next t ∧
      t.sp.val = s.sp.val + 1 ∧ t.pc.toNat = nnn.toNat ∧
      (∀ (k : Nat) (hk : k < 16), t.stack[k] = if k = s.sp.val then s.pc + 2 else s.stack[k]) ∧
      t = { s with pc := t.pc, sp := t.sp, stack := t.stack } ∧ sameBytes s t) ∧
    (s.sp.val = 16 → s.fault = none →
      exec (.callNnn nnn) s =
        .next { s with fault := some ⟨.stackOverflow, patternNnn 0x2 nnn, s.pc⟩ })

/-- RET: where an address is stacked it takes one from `SP` and jumps to the slot vacated, which is not
cleared, with no extra +2; on an empty stack it records `StackUnderflow` and changes nothing else
(40_control_flow.md section 2; the slot layout is decision D10, the record decision D9). -/
def Obligations.ReturnPopsOrUnderflows : Prop :=
  ∀ s : State,
    decodeWord 0x00EE = .ok .ret ∧
    (∀ (k : Nat) (hk : k < 16), s.sp.val = k + 1 →
      ∃ t : State, exec .ret s = .next t ∧ t.sp.val = k ∧ t.pc = s.stack[k] ∧
        t = { s with pc := t.pc, sp := t.sp } ∧ sameBytes s t) ∧
    (s.sp.val = 0 → s.fault = none →
      exec .ret s =
        .next { s with fault := some { cause := .stackUnderflow, opcode := 0x00EE, pc := s.pc } })

/-- A call and then a return come back to exactly the address after the call, with the stack pointer at its
value before the call, whatever else the subroutine changed: of the state after the call only `SP` and the one
slot the call wrote need be as they were, so the subroutine may itself have called and returned
(95_test_vectors.md S5; the slot layout is decision D10). -/
def Obligations.ReturnComesBackAfterCall : Prop :=
  ∀ (nnn : Addr) (s t u : State) (h : s.sp.val < 16), exec (.callNnn nnn) s = .next t →
    u.sp = t.sp → u.stack[s.sp.val] = t.stack[s.sp.val] →
    ∃ w : State, exec .ret u = .next w ∧ pcAdvancedBy 2 s w ∧ w.sp = s.sp ∧
      w = { u with pc := w.pc, sp := w.sp }

/-- R104, R105: the skips on a constant pass over one word exactly where their condition holds, and for
the same operands exactly one of the two skips. -/
def Obligations.ConstantSkipsCompareRegister : Prop :=
  ∀ (x : Reg) (kk : Byte) (s : State),
    decodeWord (patternXkk 0x3 x kk) = .ok (.seVxKk x kk) ∧
    decodeWord (patternXkk 0x4 x kk) = .ok (.sneVxKk x kk) ∧
    (∃ t : State, exec (.seVxKk x kk) s = .next t ∧
      pcAdvancedBy (if s.reg x = kk then 4 else 2) s t ∧ onlyPc s t) ∧
    (∃ t : State, exec (.sneVxKk x kk) s = .next t ∧
      pcAdvancedBy (if s.reg x = kk then 2 else 4) s t ∧ onlyPc s t)

/-- R106, R107: the skips on two registers, and the words `5xyN` and `9xyN` with N != 0, which are illegal. -/
def Obligations.RegisterSkipsCompareRegisters : Prop :=
  ∀ (x y : Reg) (s : State),
    decodeWord (patternXyn 0x5 x y 0x0) = .ok (.seVxVy x y) ∧
    decodeWord (patternXyn 0x9 x y 0x0) = .ok (.sneVxVy x y) ∧
    (∀ n : Nat, 0 < n → n < 16 →
      decodeWord (patternXyn 0x5 x y n) = .error (.unknownOpcode (patternXyn 0x5 x y n)) ∧
      decodeWord (patternXyn 0x9 x y n) = .error (.unknownOpcode (patternXyn 0x9 x y n))) ∧
    (∃ t : State, exec (.seVxVy x y) s = .next t ∧
      pcAdvancedBy (if s.reg x = s.reg y then 4 else 2) s t ∧ onlyPc s t) ∧
    (∃ t : State, exec (.sneVxVy x y) s = .next t ∧
      pcAdvancedBy (if s.reg x = s.reg y then 2 else 4) s t ∧ onlyPc s t)

/-- SKP Vx and SKNP Vx test the key of the low nibble of `Vx` (44_keys_timers.md sections 1 and 2,
decision D5). -/
def Obligations.KeySkipsTestLowNibble : Prop :=
  ∀ (x : Reg) (s : State),
    decodeWord (patternXkk 0xE x 0x9E) = .ok (.skpVx x) ∧
    decodeWord (patternXkk 0xE x 0xA1) = .ok (.sknpVx x) ∧
    ∀ k : Key, k.val = (s.reg x).toNat % 16 →
      (∃ t : State, exec (.skpVx x) s = .next t ∧
        pcAdvancedBy (if s.keyDown k = true then 4 else 2) s t ∧ onlyPc s t) ∧
      (∃ t : State, exec (.sknpVx x) s = .next t ∧
        pcAdvancedBy (if s.keyDown k = true then 2 else 4) s t ∧ onlyPc s t)

/-! ## Index register, loads and stores -/

/-- R141, R142: LD I, nnn and ADD I, Vx, the sum reduced modulo 4096, `VF` not written. -/
def Obligations.IndexLoadAndMaskedAdd : Prop :=
  ∀ (nnn : Addr) (x : Reg) (s : State),
    decodeWord (patternNnn 0xA nnn) = .ok (.ldINnn nnn) ∧
    decodeWord (patternXkk 0xF x 0x1E) = .ok (.addIVx x) ∧
    (∃ t : State, exec (.ldINnn nnn) s = .next t ∧
      t.i.toNat = nnn.toNat ∧ pcAdvancedBy 2 s t ∧ onlyIndex s t) ∧
    (∃ t : State, exec (.addIVx x) s = .next t ∧
      t.i.toNat = (s.i.toNat + (s.reg x).toNat) % 4096 ∧ pcAdvancedBy 2 s t ∧ onlyIndex s t)

/-- LD F, Vx sets `I` to five times the whole 8-bit `Vx`, the font base being 0; for a digit that is the
address of its glyph in the font region (42_index_memory.md section 2, decision D7). -/
def Obligations.GlyphAddressIsFiveTimesRegister : Prop :=
  ∀ (x : Reg) (s : State),
    decodeWord (patternXkk 0xF x 0x29) = .ok (.ldFVx x) ∧
    ∃ t : State, exec (.ldFVx x) s = .next t ∧
      t.i.toNat = (s.reg x).toNat * 5 ∧ ((s.reg x).toNat < 16 → t.i.toNat + 5 ≤ 80) ∧
      pcAdvancedBy 2 s t ∧ onlyIndex s t

/-- R144: LD B, Vx stores the hundreds, tens and ones of `Vx` at `I`, `I + 1` and `I + 2`, each address
reduced modulo 4096, and changes no other byte. -/
def Obligations.DecimalDigitsAreStored : Prop :=
  ∀ (x : Reg) (s : State), s.mem.wf = true →
    decodeWord (patternXkk 0xF x 0x33) = .ok (.ldBVx x) ∧
    ∃ t : State, exec (.ldBVx x) s = .next t ∧
      (t.readByte (s.i.toNat % 4096)).toNat = (s.reg x).toNat / 100 ∧
      (t.readByte ((s.i.toNat + 1) % 4096)).toNat = (s.reg x).toNat / 10 % 10 ∧
      (t.readByte ((s.i.toNat + 2) % 4096)).toNat = (s.reg x).toNat % 10 ∧
      pcAdvancedBy 2 s t ∧ onlyBytes s.i.toNat 3 s t

/-- R145: LD [I], Vx stores `V0`..`Vx` at `I`..`I + x`, each address reduced modulo 4096, and changes no
other byte; a store over the bytes at `PC + 2` is the next word fetched. -/
def Obligations.RegistersAreStored : Prop :=
  ∀ (x : Reg) (s : State), s.mem.wf = true →
    decodeWord (patternXkk 0xF x 0x55) = .ok (.ldImemVx x) ∧
    ∃ t : State, exec (.ldImemVx x) s = .next t ∧
      (∀ r : Reg, r ≤ x → t.readByte ((s.i.toNat + r.val) % 4096) = s.reg r) ∧
      (∀ r q : Reg, q.val = r.val + 1 → q ≤ x → (s.i.toNat + r.val) % 4096 = (s.pc.toNat + 2) % 4096 →
        t.fetchWord.toNat = (s.reg r).toNat * 256 + (s.reg q).toNat) ∧
      pcAdvancedBy 2 s t ∧ onlyBytes s.i.toNat (x.val + 1) s t

/-- LD Vx, [I] loads `V0`..`Vx` from `I`..`I + x`, each address reduced modulo 4096; the registers above x,
`I` and memory are unchanged (42_index_memory.md section 2). -/
def Obligations.RegistersAreLoaded : Prop :=
  ∀ (x : Reg) (s : State),
    decodeWord (patternXkk 0xF x 0x65) = .ok (.ldVxImem x) ∧
    ∃ t : State, exec (.ldVxImem x) s = .next t ∧
      (∀ r : Reg, t.reg r = if r ≤ x then s.readByte ((s.i.toNat + r.val) % 4096) else s.reg r) ∧
      pcAdvancedBy 2 s t ∧ t = { s with v := t.v, pc := t.pc } ∧ sameBytes s t

/-- LD Vx, [I] after LD [I], Vx with the same x and `I` restores `V0`..`Vx`, whatever the registers became
in between (42_index_memory.md section 2). -/
def Obligations.LoadAfterStoreRestoresRegisters : Prop :=
  ∀ (x : Reg) (s t u : State), s.mem.wf = true → exec (.ldImemVx x) s = .next t →
    u.mem = t.mem → u.i = t.i →
    ∃ w : State, exec (.ldVxImem x) u = .next w ∧
      ∀ r : Reg, w.reg r = if r ≤ x then s.reg r else u.reg r

/-! ## Display -/

/-- CLS clears all 2048 pixels and sets `DIRTY` even where the buffer was blank (43_display.md section 2,
decision D17). -/
def Obligations.ClearBlanksTheDisplay : Prop :=
  ∀ s : State,
    decodeWord 0x00E0 = .ok .cls ∧
    ∃ t : State, exec .cls s = .next t ∧
      (∀ px py : Nat, px < 64 → py < 32 → t.fb.pixel px py = false) ∧ t.dirty = true ∧
      pcAdvancedBy 2 s t ∧ t = { s with fb := t.fb, dirty := t.dirty, pc := t.pc } ∧ sameBytes s t

/-- DRW Vx, Vy, n: the sequential draw is one exclusive-or of the sprite into the buffer. Every pixel under
a 1 bit of the wrapped sprite is inverted and every other is unchanged; `VF` is 1 exactly where such a
pixel was set before the instruction; `DIRTY` is set always (43_display.md sections 1 and 2; n = 0 is
decision D20, `DIRTY` D17, x or y = 0xF D4, the wrap of the sprite's addresses D1). -/
def Obligations.DrawInvertsCoveredPixels : Prop :=
  ∀ (x y : Reg) (n : Fin 16) (s : State),
    decodeWord (patternXyn 0xD x y n.val) = .ok (.drwVxVyN x y n) ∧
    ∃ t : State, exec (.drwVxVyN x y n) s = .next t ∧
      (∀ px py : Nat, px < 64 → py < 32 →
        (spriteCovers s (s.reg x).toNat (s.reg y).toNat n.val px py →
          t.fb.pixel px py = !s.fb.pixel px py) ∧
        (¬ spriteCovers s (s.reg x).toNat (s.reg y).toNat n.val px py →
          t.fb.pixel px py = s.fb.pixel px py)) ∧
      ((∃ px py : Nat, spriteCovers s (s.reg x).toNat (s.reg y).toNat n.val px py ∧
          s.fb.pixel px py = true) → t.reg 15 = 1) ∧
      ((¬ ∃ px py : Nat, spriteCovers s (s.reg x).toNat (s.reg y).toNat n.val px py ∧
          s.fb.pixel px py = true) → t.reg 15 = 0) ∧
      t.dirty = true ∧ pcAdvancedBy 2 s t ∧
      (∀ r : Reg, r ≠ 15 → t.reg r = s.reg r) ∧ sameBytes s t ∧
      t = { s with v := t.v, fb := t.fb, dirty := t.dirty, pc := t.pc }

/-- The double draw: the same sprite drawn twice at the same place, by registers other than `VF`, restores
every pixel, and the second draw collides exactly where the first turned some pixel on; `DIRTY` is 1
after both (43_display.md section 2 corner case (g); 95_test_vectors.md S3, which excludes x = 0xF and
y = 0xF). -/
def Obligations.DrawingTwiceRestoresTheDisplay : Prop :=
  ∀ (x y : Reg) (n : Fin 16) (s t : State), x ≠ 15 → y ≠ 15 →
    exec (.drwVxVyN x y n) s = .next t →
    ∃ u : State, exec (.drwVxVyN x y n) t = .next u ∧ u.fb = s.fb ∧ u.dirty = true ∧
      (u.reg 15 = 1 ↔
        ∃ px py : Nat, spriteCovers s (s.reg x).toNat (s.reg y).toNat n.val px py ∧
          s.fb.pixel px py = false)

/-! ## Keys and timers -/

/-- The timer moves of 44_keys_timers.md section 2: LD Vx, DT copies the delay timer into a register, and
LD DT, Vx and LD ST, Vx copy a register into a timer. Each advances and changes nothing else. -/
def Obligations.TimerMovesCopyTheByte : Prop :=
  ∀ (x : Reg) (s : State),
    decodeWord (patternXkk 0xF x 0x07) = .ok (.ldVxDt x) ∧
    decodeWord (patternXkk 0xF x 0x15) = .ok (.ldDtVx x) ∧
    decodeWord (patternXkk 0xF x 0x18) = .ok (.ldStVx x) ∧
    (∃ t : State, exec (.ldVxDt x) s = .next t ∧
      t.reg x = s.dt ∧ pcAdvancedBy 2 s t ∧ onlyRegs [x] s t) ∧
    (∃ t : State, exec (.ldDtVx x) s = .next t ∧
      t.dt = s.reg x ∧ pcAdvancedBy 2 s t ∧ t = { s with dt := t.dt, pc := t.pc } ∧ sameBytes s t) ∧
    (∃ t : State, exec (.ldStVx x) s = .next t ∧
      t.st = s.reg x ∧ pcAdvancedBy 2 s t ∧ t = { s with st := t.st, pc := t.pc } ∧ sameBytes s t)

/-- LD Vx, K: where some key is pressed it captures the lowest-numbered and advances; where none is, the
whole state is unchanged (44_keys_timers.md section 2; level and lowest key are decision D6). -/
def Obligations.KeyWaitTakesLowestPressedKey : Prop :=
  ∀ (x : Reg) (s : State),
    decodeWord (patternXkk 0xF x 0x0A) = .ok (.ldVxK x) ∧
    (∀ k : Key, s.keyDown k = true → (∀ j : Key, j < k → s.keyDown j = false) →
      ∃ t : State, exec (.ldVxK x) s = .next t ∧
        (t.reg x).toNat = k.val ∧ pcAdvancedBy 2 s t ∧ onlyRegs [x] s t) ∧
    ((∀ k : Key, s.keyDown k = false) → exec (.ldVxK x) s = .next s)

/-- A core that waits for a key stays where it is under any schedule without `set_keys`: only the timers and
the dirty flag can change (70_reset_and_hazards.md section 5; 44_keys_timers.md section 2; that there is no
wait bit is decision D6, that any schedule may come is D16). That a halted core does not count as waiting is the
model's choice (assumption log 12). -/
def Obligations.WaitingLastsUntilKeysChange : Prop :=
  ∀ (es : List Event) (a : Word) (x : Reg) (s : State), waitingAt a x s →
    (∀ k : KeyLatch, Event.setKeys k ∉ es) →
    ∃ t : State, runEvents es s = .next t ∧
      t = { s with dt := t.dt, st := t.st, dirty := t.dirty } ∧ waitingAt a x t

/-- A parked core stays parked under any schedule: only the timers, the input latch and the dirty flag can
change (70_reset_and_hazards.md section 5; that any schedule may come is decision D16). That a halted core does not
count as parked is the model's choice (assumption log 12). -/
def Obligations.ParkedCoreStaysParked : Prop :=
  ∀ (es : List Event) (a : Addr) (s : State), parkedAt a s →
    ∃ t : State, runEvents es s = .next t ∧
      t = { s with dt := t.dt, st := t.st, key := t.key, dirty := t.dirty } ∧ parkedAt a t

/-! ## Events -/

/-- A tick decrements each non-zero timer by itself and changes nothing else; in the halted state it changes
nothing (60_exceptions.md section 6; the halted clause is decision D18). -/
def Obligations.TickDecrementsNonzeroTimers : Prop :=
  ∀ s : State,
    (s.fault = none →
      (tick s).dt.toNat = s.dt.toNat - 1 ∧ (tick s).st.toNat = s.st.toNat - 1 ∧
      tick s = { s with dt := (tick s).dt, st := (tick s).st }) ∧
    (∀ f : FaultRecord, s.fault = some f → tick s = s)

/-- A run of n ticks takes each timer down by n, and a timer that reaches 0 stays there, however many ticks
follow: "after loading delay timer with 5 and invoking `tick_timers()` five times, the timer reads 0; a
sixth tick leaves it at 0" (60_exceptions.md section 6). -/
def Obligations.TimersDecayToZeroAndStay : Prop :=
  ∀ (n : Nat) (s : State), s.fault = none →
    ∃ t : State, runEvents (List.replicate n .tick) s = .next t ∧
      t.dt.toNat = s.dt.toNat - n ∧ t.st.toNat = s.st.toNat - n ∧
      t = { s with dt := t.dt, st := t.st }

/-- R185, R187: `set_keys` overwrites all sixteen latch bits at once; `display` returns the pixels and the
flag and clears the flag; nothing else changes. -/
def Obligations.HostEventsTouchOnlyTheirState : Prop :=
  ∀ (k : KeyLatch) (s : State),
    (∀ j : Key, (setKeys k s).keyDown j = k[j.val]) ∧
    setKeys k s = { s with key := (setKeys k s).key } ∧
    (∀ px py : Nat, px < 64 → py < 32 → (displayView s).pixels.pixel px py = s.fb.pixel px py) ∧
    (displayView s).dirty = s.dirty ∧ (display s).dirty = false ∧
    display s = { s with dirty := (display s).dirty }

/-- A load that fits writes its bytes from its address on and nothing else; one that passes 0xFFF records
`LoadFault` and writes no byte (60_exceptions.md section 6, decision D21; the record is decision D9). On a core
that has a fault recorded, the fault keeps its value (60_exceptions.md section 1, decision D18), and a load that
does not fit changes nothing; that a load that fits still writes its bytes there is read from the load's
pseudocode, which does not test `FAULT` (assumption log 7). -/
def Obligations.LoadWritesWholeOrFaults : Prop :=
  ∀ (a : Word) (bytes : List Byte) (s : State), s.mem.wf = true →
    (a.toNat + bytes.length ≤ 4096 →
      (∀ (k : Nat) (hk : k < bytes.length), (load a bytes s).readByte (a.toNat + k) = bytes[k]) ∧
      (∀ b : Nat, b < 4096 → b < a.toNat ∨ a.toNat + bytes.length ≤ b →
        (load a bytes s).readByte b = s.readByte b) ∧
      load a bytes s = { s with mem := (load a bytes s).mem }) ∧
    (4096 < a.toNat + bytes.length → s.fault = none →
      load a bytes s = { s with fault := some { cause := .loadFault, opcode := 0, pc := 0x0200 } }) ∧
    (∀ f : FaultRecord, s.fault = some f →
      (load a bytes s).fault = some f ∧ (4096 < a.toNat + bytes.length → load a bytes s = s))

/-! ## Reset -/

/-- The state right after reset with the model's font table and an empty image (10_state.md section 14; the
zeros the source does not name one by one are decision D14, and no fault is decision D9; the font bytes are
decision D13 and assumption log 1). -/
def Obligations.ResetHoldsTheStatedValues : Prop :=
  (∀ r : Reg, State.reset.reg r = 0) ∧ State.reset.i = 0 ∧ State.reset.pc = 0x0200 ∧
  State.reset.sp = 0 ∧ (∀ (k : Nat) (hk : k < 16), State.reset.stack[k] = 0) ∧
  State.reset.dt = 0 ∧ State.reset.st = 0 ∧
  (∀ px py : Nat, px < 64 → py < 32 → State.reset.fb.pixel px py = false) ∧
  State.reset.dirty = false ∧ (∀ k : Key, State.reset.keyDown k = false) ∧
  State.reset.fault = none ∧
  (∀ a : Nat, a < 4096 → State.reset.readByte a = if a < 80 then fontTable.getD a 0 else 0)

/-- Reset with any font table and any image: every register as after reset, the font at 0, the image at
0x200 and zero elsewhere; an image of more than 3584 bytes gives a core with a `LoadFault` that no step
moves (70_reset_and_hazards.md sections 1 and 2; decisions D14 and D21, the record D9, the idle step D18). That
memory is in canonical form is about the model's own representation and is the model's choice (assumption
log 2). -/
def Obligations.ResetInstallsFontAndImage : Prop :=
  ∀ (font : Vector Byte 80) (image : List Byte),
    (image.length ≤ 3584 →
      resetWith font image = { State.reset with mem := (resetWith font image).mem } ∧
      (resetWith font image).mem.wf = true ∧
      (∀ (a : Nat) (ha : a < 80), (resetWith font image).readByte a = font[a]) ∧
      (∀ a : Nat, 80 ≤ a → a < 0x200 → (resetWith font image).readByte a = 0) ∧
      (∀ a : Nat, 0x200 ≤ a → a < 4096 →
        (resetWith font image).readByte a = image.getD (a - 0x200) 0)) ∧
    (3584 < image.length →
      (resetWith font image).fault = some { cause := .loadFault, opcode := 0, pc := 0x0200 } ∧
      step (resetWith font image) = .next (resetWith font image))

/-! ## The invariant -/

/-- The invariant holds right after reset: `I` is 0 and no fault is recorded (10_state.md sections 3 and 14; no
fault is decision D9). Its part about canonical memory is the model's own representation and the model's choice
(assumption log 2). -/
def Obligations.ResetMeetsTheInvariant : Prop := Inv State.reset

/-- Every step keeps the invariant: `I` stays within 12 bits (10_state.md section 3), and a recorded fault names
the word at `PC`, `PC` and its cause's condition (60_exceptions.md section 1; the record is decision D9). That
memory stays canonical is about the model's own representation and is the model's choice (assumption log 2). -/
def Obligations.StepKeepsTheInvariant : Prop :=
  ∀ s t : State, Inv s → step s = .next t → Inv t

/-- Every schedule of events (00_scope.md section 6, decision D16) keeps the invariant (10_state.md section 3;
60_exceptions.md section 1, decisions D9 and D18). Its part about canonical memory is the model's own
representation and the model's choice (assumption log 2), and that no schedule ends in a stop of the model is
the model's form of a fault, a next state (assumption log 4). -/
def Obligations.ScheduleKeepsTheInvariant : Prop :=
  ∀ (es : List Event) (s : State), Inv s → ∃ t : State, runEvents es s = .next t ∧ Inv t
end

