-- ==== Sys2Proof/Laws/Decode.lean ====
section
/-! SUPPORT. Words as numbers: the value of each field of a word, the value of each format, and so the
fields of an encoded word. Every fact about encodings is linear arithmetic over these. -/

namespace Sys2Proof

/-! ### The fields of a word, as numbers -/

theorem toNat_topNibble (w : Word) : (topNibble w).toNat = w.toNat / 4096 := by
  have := w.isLt
  simp only [topNibble, BitVec.extractLsb'_toNat, Nat.shiftRight_eq_div_pow]
  omega

theorem val_fieldX (w : Word) : (fieldX w).val = w.toNat / 256 % 16 := by
  simp [fieldX, Nat.shiftRight_eq_div_pow]

theorem val_fieldY (w : Word) : (fieldY w).val = w.toNat / 16 % 16 := by
  simp [fieldY, Nat.shiftRight_eq_div_pow]

theorem val_fieldN (w : Word) : (fieldN w).val = w.toNat % 16 := by
  simp [fieldN]

theorem toNat_lowNibble (w : Word) : (lowNibble w).toNat = w.toNat % 16 := by
  simp [lowNibble]

theorem toNat_fieldKk (w : Word) : (fieldKk w).toNat = w.toNat % 256 := by
  simp [fieldKk]

theorem toNat_fieldNnn (w : Word) : (fieldNnn w).toNat = w.toNat % 4096 := by
  simp [fieldNnn]

/-! ### The formats, as numbers -/

/-- Two concatenated bit vectors, as a number. -/
theorem toNat_append_eq (n m : Nat) (a : BitVec n) (b : BitVec m) :
    (a ++ b).toNat = a.toNat * 2 ^ m + b.toNat := by
  rw [BitVec.toNat_append, ← Nat.shiftLeft_add_eq_or_of_lt b.isLt, Nat.shiftLeft_eq]

theorem toNat_formatNnn (t : Nibble) (nnn : Addr) :
    (formatNnn t nnn).toNat = t.toNat * 4096 + nnn.toNat :=
  toNat_append_eq 4 12 t nnn

theorem toNat_formatXkk (t : Nibble) (x : Reg) (kk : Byte) :
    (formatXkk t x kk).toNat = t.toNat * 4096 + x.val * 256 + kk.toNat := by
  have outer : (formatXkk t x kk).toNat = (t ++ BitVec.ofFin (w := 4) x).toNat * 2 ^ 8 + kk.toNat :=
    toNat_append_eq (4 + 4) 8 _ kk
  rw [outer, toNat_append_eq]
  simp only [BitVec.toNat_ofFin]
  omega

theorem toNat_formatXyn (t : Nibble) (x y : Reg) (low : Nibble) :
    (formatXyn t x y low).toNat = t.toNat * 4096 + x.val * 256 + y.val * 16 + low.toNat := by
  have outer : (formatXyn t x y low).toNat =
      (t ++ BitVec.ofFin (w := 4) x ++ BitVec.ofFin (w := 4) y).toNat * 2 ^ 4 + low.toNat :=
    toNat_append_eq (4 + 4 + 4) 4 _ low
  rw [outer, toNat_append_eq (4 + 4) 4, toNat_append_eq]
  simp only [BitVec.toNat_ofFin]
  omega

theorem formatNnn_eq_pattern (t : Nibble) (nnn : Addr) : formatNnn t nnn = patternNnn t.toNat nnn := by
  have := t.isLt
  have := nnn.isLt
  apply BitVec.eq_of_toNat_eq
  rw [toNat_formatNnn, patternNnn, BitVec.toNat_ofNat]
  omega

theorem formatXkk_eq_pattern (t : Nibble) (x : Reg) (kk : Byte) :
    formatXkk t x kk = patternXkk t.toNat x kk := by
  have := t.isLt
  have := x.isLt
  have := kk.isLt
  apply BitVec.eq_of_toNat_eq
  rw [toNat_formatXkk, patternXkk, BitVec.toNat_ofNat]
  omega

theorem formatXyn_eq_pattern (t : Nibble) (x y : Reg) (low : Nibble) :
    formatXyn t x y low = patternXyn t.toNat x y low.toNat := by
  have := t.isLt
  have := x.isLt
  have := y.isLt
  have := low.isLt
  apply BitVec.eq_of_toNat_eq
  rw [toNat_formatXyn, patternXyn, BitVec.toNat_ofNat]
  omega

/-! ### The fields of an encoded word -/

section
variable (t low : Nibble) (x y : Reg) (kk : Byte) (nnn : Addr)

@[simp] theorem topNibble_formatNnn : topNibble (formatNnn t nnn) = t := by
  have := nnn.isLt
  apply BitVec.eq_of_toNat_eq
  rw [toNat_topNibble, toNat_formatNnn]
  omega

@[simp] theorem fieldNnn_formatNnn : fieldNnn (formatNnn t nnn) = nnn := by
  have := nnn.isLt
  apply BitVec.eq_of_toNat_eq
  rw [toNat_fieldNnn, toNat_formatNnn]
  omega

@[simp] theorem topNibble_formatXkk : topNibble (formatXkk t x kk) = t := by
  have := x.isLt
  have := kk.isLt
  apply BitVec.eq_of_toNat_eq
  rw [toNat_topNibble, toNat_formatXkk]
  omega

@[simp] theorem fieldX_formatXkk : fieldX (formatXkk t x kk) = x := by
  have := x.isLt
  have := kk.isLt
  apply Fin.ext
  rw [val_fieldX, toNat_formatXkk]
  omega

@[simp] theorem fieldKk_formatXkk : fieldKk (formatXkk t x kk) = kk := by
  have := kk.isLt
  apply BitVec.eq_of_toNat_eq
  rw [toNat_fieldKk, toNat_formatXkk]
  omega

@[simp] theorem topNibble_formatXyn : topNibble (formatXyn t x y low) = t := by
  have := x.isLt
  have := y.isLt
  have := low.isLt
  apply BitVec.eq_of_toNat_eq
  rw [toNat_topNibble, toNat_formatXyn]
  omega

@[simp] theorem fieldX_formatXyn : fieldX (formatXyn t x y low) = x := by
  have := x.isLt
  have := y.isLt
  have := low.isLt
  apply Fin.ext
  rw [val_fieldX, toNat_formatXyn]
  omega

@[simp] theorem fieldY_formatXyn : fieldY (formatXyn t x y low) = y := by
  have := y.isLt
  have := low.isLt
  apply Fin.ext
  rw [val_fieldY, toNat_formatXyn]
  omega

@[simp] theorem lowNibble_formatXyn : lowNibble (formatXyn t x y low) = low := by
  have := low.isLt
  apply BitVec.eq_of_toNat_eq
  rw [toNat_lowNibble, toNat_formatXyn]
  omega

@[simp] theorem fieldN_formatXyn : fieldN (formatXyn t x y low) = low.toFin := by
  have := low.isLt
  apply Fin.ext
  rw [val_fieldN, toNat_formatXyn]
  show _ = low.toNat
  omega

end

/-! ### The masks of R75, as numbers -/

/-- Bitwise AND of concatenated bit vectors, part by part. -/
theorem append_and_append (n m : Nat) (a c : BitVec n) (b d : BitVec m) :
    (a ++ b) &&& (c ++ d) = (a &&& c) ++ (b &&& d) := by
  apply BitVec.eq_of_getLsbD_eq
  intro i _
  simp only [BitVec.getLsbD_and, BitVec.getLsbD_append]
  split <;> simp

/-- Every word is its four fields. -/
theorem eq_formatXyn (w : Word) :
    w = formatXyn (topNibble w) (fieldX w) (fieldY w) (lowNibble w) := by
  have := w.isLt
  apply BitVec.eq_of_toNat_eq
  rw [toNat_formatXyn, toNat_topNibble, val_fieldX, val_fieldY, toNat_lowNibble]
  omega

/-- A register number seen through a 4-bit mask. -/
def maskReg (x m : Reg) : Reg := (BitVec.ofFin (w := 4) x &&& BitVec.ofFin (w := 4) m).toFin

theorem formatXyn_and (t t' l l' : Nibble) (x x' y y' : Reg) :
    formatXyn t x y l &&& formatXyn t' x' y' l' =
      formatXyn (t &&& t') (maskReg x x') (maskReg y y') (l &&& l') := by
  unfold formatXyn maskReg
  rw [append_and_append (4 + 4 + 4) 4, append_and_append (4 + 4) 4, append_and_append 4 4]

/-- A word seen through a mask of whole digits, as a number. -/
theorem toNat_and_digits (w : Word) (t x y l : Bool) :
    (w &&& formatXyn (if t then 15 else 0) (if x then 15 else 0) (if y then 15 else 0)
      (if l then 15 else 0)).toNat =
      (if t then w.toNat / 4096 else 0) * 4096 + (if x then w.toNat / 256 % 16 else 0) * 256 +
        (if y then w.toNat / 16 % 16 else 0) * 16 + (if l then w.toNat % 16 else 0) := by
  have nib : ∀ (b : Bool) (n : Nibble), (n &&& if b then 15 else 0).toNat = if b then n.toNat else 0 := by
    decide
  have reg : ∀ (b : Bool) (r : Reg), (maskReg r (if b then 15 else 0)).val = if b then r.val else 0 := by
    decide
  conv_lhs => rw [eq_formatXyn w]
  rw [formatXyn_and, toNat_formatXyn, nib, reg, reg, nib, toNat_topNibble, val_fieldX, val_fieldY,
    toNat_lowNibble]

theorem toNat_and_F000 (w : Word) : (w &&& 0xF000#16).toNat = w.toNat / 4096 * 4096 :=
  (toNat_and_digits w true false false false).trans (by simp)

theorem toNat_and_F00F (w : Word) : (w &&& 0xF00F#16).toNat = w.toNat / 4096 * 4096 + w.toNat % 16 :=
  (toNat_and_digits w true false false true).trans (by simp)

theorem toNat_and_F0FF (w : Word) : (w &&& 0xF0FF#16).toNat = w.toNat / 4096 * 4096 + w.toNat % 256 :=
  (toNat_and_digits w true false true true).trans (by simp only [if_true]; simp; omega)

/-! A word whose number, seen through a row's mask, is the row's match lies in the row. -/

theorem and_F000_eq (w m : Word) (h : w.toNat / 4096 * 4096 = m.toNat) : w &&& 0xF000#16 = m :=
  BitVec.eq_of_toNat_eq ((toNat_and_F000 w).trans h)

theorem and_F00F_eq (w m : Word) (h : w.toNat / 4096 * 4096 + w.toNat % 16 = m.toNat) :
    w &&& 0xF00F#16 = m :=
  BitVec.eq_of_toNat_eq ((toNat_and_F00F w).trans h)

theorem and_F0FF_eq (w m : Word) (h : w.toNat / 4096 * 4096 + w.toNat % 256 = m.toNat) :
    w &&& 0xF0FF#16 = m :=
  BitVec.eq_of_toNat_eq ((toNat_and_F0FF w).trans h)

theorem and_FFFF (w : Word) : w &&& 0xFFFF#16 = w := BitVec.and_allOnes

/-! ### The bytes of a word (R54) -/

theorem toNat_wordOfBytes (hi lo : Byte) :
    (wordOfBytes hi lo).toNat = hi.toNat * 256 + lo.toNat :=
  toNat_append_eq 8 8 hi lo

theorem toNat_highByte (w : Word) : (highByte w).toNat = w.toNat / 256 := by
  have := w.isLt
  simp only [highByte, BitVec.extractLsb'_toNat, Nat.shiftRight_eq_div_pow]
  omega

theorem toNat_lowByte (w : Word) : (lowByte w).toNat = w.toNat % 256 := by
  simp [lowByte]

/-- A word stored high byte first is read back whole. -/
@[simp] theorem wordOfBytes_bytes (w : Word) : wordOfBytes (highByte w) (lowByte w) = w := by
  apply BitVec.eq_of_toNat_eq
  rw [toNat_wordOfBytes, toNat_highByte, toNat_lowByte]
  omega

end Sys2Proof
end

