-- ==== Sys2Proof/Laws/Display.lean ====
section
/-! SUPPORT. The laws of the framebuffer: a pixel after a toggle, and what one sprite row does to every
pixel and to the collision flag. -/

namespace Sys2Proof.Machine

/-- Coordinates are reduced (R150). -/
theorem Framebuffer.pixel_mod (fb : Framebuffer) (px py : Nat) :
    fb.pixel (px % 64) (py % 32) = fb.pixel px py := by
  simp [Framebuffer.pixel]

/-- A toggle inverts its pixel and leaves every other alone. -/
theorem Framebuffer.pixel_toggle (fb : Framebuffer) (px py qx qy : Nat) :
    (fb.toggle px py).pixel qx qy =
      if px % 64 = qx % 64 ∧ py % 32 = qy % 32 then !fb.pixel qx qy else fb.pixel qx qy := by
  unfold Framebuffer.toggle Framebuffer.pixel
  by_cases hy : py % 32 = qy % 32
  · by_cases hx : px % 64 = qx % 64
    · simp [hx, hy]
    · simp [hx, hy]
  · simp [hy]

@[simp] theorem Framebuffer.pixel_blank (px py : Nat) : Framebuffer.blank.pixel px py = false := by
  simp [Framebuffer.blank, Framebuffer.pixel]

/-- Framebuffers with equal pixels are equal. -/
theorem Framebuffer.ext_of_pixel (fb fb' : Framebuffer)
    (h : ∀ px py : Nat, px < 64 → py < 32 → fb.pixel px py = fb'.pixel px py) : fb = fb' := by
  apply Vector.ext
  intro py hy
  apply Vector.ext
  intro px hx
  have := h px py hx hy
  simpa [Framebuffer.pixel, Nat.mod_eq_of_lt hx, Nat.mod_eq_of_lt hy] using this

/-! ### Plotting a list of points -/

/-- The points of a sprite that are 1, plotted one after another. -/
def Blit.plotAll (b : Blit) : List (Nat × Nat) → Blit
  | [] => b
  | p :: ps => Blit.plotAll (b.plot p.1 p.2) ps

/-- Two points are of different pixels. -/
def apart (p q : Nat × Nat) : Prop := ¬ (p.1 % 64 = q.1 % 64 ∧ p.2 % 32 = q.2 % 32)

/-- Points of different pixels, plotted in order: each of their pixels is inverted, once. -/
theorem Blit.pixel_plotAll (b : Blit) (ps : List (Nat × Nat)) (hps : ps.Pairwise apart)
    (qx qy : Nat) :
    (b.plotAll ps).fb.pixel qx qy =
      (b.fb.pixel qx qy ^^ decide (∃ p ∈ ps, p.1 % 64 = qx % 64 ∧ p.2 % 32 = qy % 32)) := by
  induction ps generalizing b with
  | nil => simp [Blit.plotAll]
  | cons p ps ih =>
    obtain ⟨hp, hps'⟩ := List.pairwise_cons.mp hps
    rw [Blit.plotAll, ih _ hps', Blit.plot, Framebuffer.pixel_toggle]
    by_cases h : p.1 % 64 = qx % 64 ∧ p.2 % 32 = qy % 32
    · have none : ¬ ∃ q ∈ ps, q.1 % 64 = qx % 64 ∧ q.2 % 32 = qy % 32 := by
        rintro ⟨q, hq, hqx, hqy⟩
        exact hp q hq ⟨h.1.trans hqx.symm, h.2.trans hqy.symm⟩
      have some : ∃ q ∈ p :: ps, q.1 % 64 = qx % 64 ∧ q.2 % 32 = qy % 32 :=
        ⟨p, by simp, h⟩
      rw [if_pos h, decide_eq_false none, decide_eq_true some]
      simp
    · rw [if_neg h]
      congr 2
      simp only [List.mem_cons, eq_iff_iff]
      constructor
      · rintro ⟨q, hq, hqq⟩
        exact ⟨q, .inr hq, hqq⟩
      · rintro ⟨q, rfl | hq, hqq⟩
        · exact absurd hqq h
        · exact ⟨q, hq, hqq⟩

/-- A plot collides exactly where some point's pixel was set before the first of them. -/
theorem Blit.hit_plotAll (b : Blit) (ps : List (Nat × Nat)) (hps : ps.Pairwise apart) :
    (b.plotAll ps).hit = (b.hit || decide (∃ p ∈ ps, b.fb.pixel p.1 p.2 = true)) := by
  induction ps generalizing b with
  | nil => simp [Blit.plotAll]
  | cons p ps ih =>
    obtain ⟨hp, hps'⟩ := List.pairwise_cons.mp hps
    rw [Blit.plotAll, ih _ hps', Blit.plot]
    have same : ∀ q ∈ ps, (b.fb.toggle p.1 p.2).pixel q.1 q.2 = b.fb.pixel q.1 q.2 := by
      intro q hq
      rw [Framebuffer.pixel_toggle, if_neg (hp q hq)]
    have : (∃ q ∈ ps, (b.fb.toggle p.1 p.2).pixel q.1 q.2 = true) ↔
        ∃ q ∈ ps, b.fb.pixel q.1 q.2 = true := by
      constructor
      · rintro ⟨q, hq, h⟩
        exact ⟨q, hq, by rwa [same q hq] at h⟩
      · rintro ⟨q, hq, h⟩
        exact ⟨q, hq, by rwa [same q hq]⟩
    simp only [this, List.mem_cons, exists_eq_or_imp, Bool.decide_or, Bool.decide_eq_true,
      Bool.or_assoc]

theorem Blit.plotAll_append (b : Blit) (ps qs : List (Nat × Nat)) :
    b.plotAll (ps ++ qs) = (b.plotAll ps).plotAll qs := by
  induction ps generalizing b with
  | nil => rfl
  | cons p ps ih => exact ih (b.plot p.1 p.2)

/-! ### A sprite is the plot of its points -/

/-- The points of one sprite row at (x0, py): the columns whose bit is 1, from the left. -/
def rowPoints (x0 py : Nat) (row : Byte) : List (Nat × Nat) :=
  ((List.range 8).filter (spriteBit row)).map fun c => (x0 + c, py)

/-- The points of a sprite at (x0, y0), row by row. -/
def spritePoints (s : State) (x0 y0 n : Nat) : List (Nat × Nat) :=
  (List.range n).flatMap fun r => rowPoints x0 (y0 + r) (s.spriteRow r)

theorem Blit.drawRow_eq_plotAll (b : Blit) (x0 py : Nat) (row : Byte) :
    b.drawRow x0 py row = b.plotAll (rowPoints x0 py row) := by
  unfold Blit.drawRow rowPoints
  induction List.range 8 generalizing b with
  | nil => rfl
  | cons c cs ih =>
    rw [List.foldl_cons, ih]
    by_cases h : spriteBit row c
    · simp [h, Blit.plotAll]
    · simp [h]

theorem State.drawSprite_eq_plotAll (s : State) (x0 y0 n : Nat) :
    s.drawSprite x0 y0 n =
      Blit.plotAll { fb := s.fb, hit := false } (spritePoints s x0 y0 n) := by
  unfold State.drawSprite spritePoints
  generalize ({ fb := s.fb, hit := false } : Blit) = b
  induction List.range n generalizing b with
  | nil => rfl
  | cons r rs ih => rw [List.foldl_cons, ih, List.flatMap_cons, Blit.plotAll_append,
      Blit.drawRow_eq_plotAll]

/-- A point of a sprite is a row below n, a column below 8 and a bit of 1 there. -/
theorem mem_spritePoints (s : State) (x0 y0 n : Nat) (p : Nat × Nat) :
    p ∈ spritePoints s x0 y0 n ↔
      ∃ r : Nat, r < n ∧ ∃ c : Nat, c < 8 ∧ (s.readByte (s.i.toNat + r)).getLsbD (7 - c) = true ∧
        p = (x0 + c, y0 + r) := by
  simp only [spritePoints, rowPoints, List.mem_flatMap, List.mem_range, List.mem_map,
    List.mem_filter, spriteBit, State.spriteRow, State.dataAddr]
  constructor
  · rintro ⟨r, hr, c, ⟨hc, hb⟩, rfl⟩
    exact ⟨r, hr, c, hc, hb, rfl⟩
  · rintro ⟨r, hr, c, hc, hb, rfl⟩
    exact ⟨r, hr, c, ⟨hc, hb⟩, rfl⟩

/-- "No pixel is visited twice in one instruction": 8 < 64 and 15 < 32 (R152 (b)). -/
theorem apart_spritePoints (s : State) (x0 y0 n : Nat) (hn : n ≤ 32) :
    (spritePoints s x0 y0 n).Pairwise apart := by
  unfold spritePoints
  rw [List.pairwise_flatMap]
  constructor
  · intro r _
    unfold rowPoints
    rw [List.pairwise_map]
    refine List.Pairwise.filter _ (List.Pairwise.imp_of_mem ?_ List.pairwise_lt_range)
    intro c d hc hd hlt h
    rw [List.mem_range] at hc hd
    have h1 : (x0 + c) % 64 = (x0 + d) % 64 := h.1
    omega
  · refine List.Pairwise.imp_of_mem ?_ List.pairwise_lt_range
    intro r q hr hq hlt p hp p' hp' h
    rw [List.mem_range] at hr hq
    obtain ⟨c, -, rfl⟩ := List.mem_map.mp hp
    obtain ⟨d, -, rfl⟩ := List.mem_map.mp hp'
    have h2 : (y0 + r) % 32 = (y0 + q) % 32 := h.2
    omega

end Sys2Proof.Machine
end

