-- ==== Sys2Proof/Laws/Memory.lean ====
section
/-! SUPPORT. The laws of memory: a read after a write, the bytes a store writes, the canonical form kept by
every operation, and equal reads make equal memories. -/

namespace Sys2Proof.Machine

/-! ### Canonical form -/

theorem wellPlaced_cons (lo a : Nat) (v : Byte) (m : Memory) :
    wellPlaced lo ((a, v) :: m) = true ↔
      lo ≤ a ∧ a < Config.memSize ∧ v ≠ backgroundByte a ∧ wellPlaced (a + 1) m = true := by
  simp [wellPlaced, and_assoc]

/-- A lower bound of the addresses may be lowered. -/
theorem wellPlaced_mono (lo hi : Nat) (m : Memory) (h : lo ≤ hi) (hm : wellPlaced hi m = true) :
    wellPlaced lo m = true := by
  cases m with
  | nil => rfl
  | cons c m =>
    obtain ⟨a, v⟩ := c
    rw [wellPlaced_cons] at hm ⊢
    exact ⟨by omega, hm.2⟩

/-- Below every listed address memory reads as its background. -/
theorem lookupCell_of_lt (lo a : Nat) (m : Memory) (hm : wellPlaced lo m = true) (h : a < lo) :
    lookupCell a m = backgroundByte a := by
  induction m generalizing lo with
  | nil => rfl
  | cons c m ih =>
    obtain ⟨b, w⟩ := c
    rw [wellPlaced_cons] at hm
    rw [lookupCell, if_neg (by omega)]
    exact ih (b + 1) hm.2.2.2 (by omega)

theorem wellPlaced_consCell (lo a : Nat) (v : Byte) (m : Memory) (hlo : lo ≤ a)
    (ha : a < Config.memSize) (hm : wellPlaced (a + 1) m = true) :
    wellPlaced lo (consCell a v m) = true := by
  unfold consCell
  split
  · exact wellPlaced_mono lo (a + 1) m (by omega) hm
  · rw [wellPlaced_cons]
    exact ⟨hlo, ha, ‹_›, hm⟩

theorem lookupCell_consCell (a b : Nat) (v : Byte) (m : Memory) (hm : wellPlaced (a + 1) m = true) :
    lookupCell b (consCell a v m) = if b = a then v else lookupCell b m := by
  unfold consCell
  split
  · rename_i hv
    by_cases h : b = a
    · subst h
      rw [if_pos rfl, lookupCell_of_lt (b + 1) b m hm (by omega), hv]
    · rw [if_neg h]
  · rfl

theorem wellPlaced_storeCell (lo a : Nat) (v : Byte) (m : Memory) (hlo : lo ≤ a)
    (ha : a < Config.memSize) (hm : wellPlaced lo m = true) :
    wellPlaced lo (storeCell a v m) = true := by
  induction m generalizing lo with
  | nil => exact wellPlaced_consCell lo a v [] hlo ha rfl
  | cons c m ih =>
    obtain ⟨b, w⟩ := c
    have hm' := (wellPlaced_cons lo b w m).mp hm
    rw [storeCell]
    split
    · refine wellPlaced_consCell lo a v _ hlo ha ?_
      rw [wellPlaced_cons]
      exact ⟨by omega, hm'.2⟩
    · split
      · subst_vars
        exact wellPlaced_consCell lo b v m hlo ha hm'.2.2.2
      · rw [wellPlaced_cons]
        exact ⟨hm'.1, hm'.2.1, hm'.2.2.1, ih (b + 1) (by omega) hm'.2.2.2⟩

theorem lookupCell_storeCell (lo a b : Nat) (v : Byte) (m : Memory) (hm : wellPlaced lo m = true) :
    lookupCell b (storeCell a v m) = if b = a then v else lookupCell b m := by
  induction m generalizing lo with
  | nil => exact lookupCell_consCell a b v [] rfl
  | cons c m ih =>
    obtain ⟨d, w⟩ := c
    have hm' := (wellPlaced_cons lo d w m).mp hm
    rw [storeCell]
    split
    · refine lookupCell_consCell a b v _ ?_
      rw [wellPlaced_cons]
      exact ⟨by omega, hm'.2⟩
    · split
      · subst_vars
        rw [lookupCell_consCell d b v m hm'.2.2.2, lookupCell]
        by_cases h : b = d <;> simp [h]
      · rw [lookupCell, lookupCell, ih (d + 1) hm'.2.2.2]
        by_cases h : b = d
        · subst h
          rw [if_pos rfl, if_pos rfl, if_neg (Ne.symm ‹_›)]
        · rw [if_neg h, if_neg h]

/-! ### One byte -/

/-- Every write keeps the canonical form. -/
theorem Memory.wf_write (m : Memory) (a : Nat) (v : Byte) (hm : m.wf = true) :
    (m.write a v).wf = true :=
  wellPlaced_storeCell 0 _ v m (Nat.zero_le _) (Nat.mod_lt _ (by decide)) hm

/-- A read gives the last byte written there (R57), an address being its value modulo 4096 (R51). -/
theorem Memory.read_write (m : Memory) (a b : Nat) (v : Byte) (hm : m.wf = true) :
    (m.write a v).read b = if b % 4096 = a % 4096 then v else m.read b :=
  lookupCell_storeCell 0 _ _ v m hm

/-- Reading reduces the address (R51). -/
theorem Memory.read_mod (m : Memory) (a : Nat) : m.read (a % 4096) = m.read a := by
  simp [Memory.read]

/-! ### Several bytes -/

/-- A store of several bytes keeps the canonical form. -/
theorem Memory.wf_writeBytes (m : Memory) (a : Nat) (l : List Byte) (hm : m.wf = true) :
    (m.writeBytes a l).wf = true := by
  induction l generalizing m a with
  | nil => exact hm
  | cons v l ih => exact ih _ _ (m.wf_write a v hm)

/-- An address that none of the stored ones equals modulo 4096 reads as before. -/
theorem Memory.read_writeBytes_outside (m : Memory) (a b : Nat) (l : List Byte) (hm : m.wf = true)
    (h : ∀ k : Nat, k < l.length → b % 4096 ≠ (a + k) % 4096) :
    (m.writeBytes a l).read b = m.read b := by
  induction l generalizing m a with
  | nil => rfl
  | cons v l ih =>
    rw [Memory.writeBytes, ih _ _ (m.wf_write a v hm), Memory.read_write _ _ _ _ hm, if_neg]
    · exact h 0 (by simp)
    · intro k hk
      have := h (k + 1) (by simpa using hk)
      rwa [show a + 1 + k = a + (k + 1) by omega]

/-- Byte k of a store of at most 4096 bytes lands at address a + k. -/
theorem Memory.read_writeBytes_inside (m : Memory) (a k : Nat) (l : List Byte) (hm : m.wf = true)
    (hlen : l.length ≤ 4096) (hk : k < l.length) :
    (m.writeBytes a l).read (a + k) = l[k] := by
  induction l generalizing m a k with
  | nil => simp at hk
  | cons v l ih =>
    have hlen' : l.length + 1 ≤ 4096 := by simpa using hlen
    cases k with
    | zero =>
      rw [Memory.writeBytes, Memory.read_writeBytes_outside _ _ _ _ (m.wf_write a v hm),
        Memory.read_write _ _ _ _ hm, Nat.add_zero, if_pos rfl]
      · rfl
      · intro j hj
        omega
    | succ k =>
      have hk' : k < l.length := by simpa using hk
      have := ih (m.write a v) (a + 1) k (m.wf_write a v hm) (by omega) hk'
      rw [show a + 1 + k = a + (k + 1) by omega] at this
      simpa [Memory.writeBytes] using this

/-! ### Equal memories are equal data -/

theorem wellPlaced_ext (lo : Nat) (m m' : Memory) (hm : wellPlaced lo m = true)
    (hm' : wellPlaced lo m' = true) (h : ∀ a : Nat, lookupCell a m = lookupCell a m') : m = m' := by
  induction m generalizing lo m' with
  | nil =>
    cases m' with
    | nil => rfl
    | cons c m' =>
      obtain ⟨a, v⟩ := c
      have := h a
      rw [wellPlaced_cons] at hm'
      simp only [lookupCell, if_pos] at this
      exact absurd this.symm hm'.2.2.1
  | cons c m ih =>
    obtain ⟨a, v⟩ := c
    have hc := (wellPlaced_cons lo a v m).mp hm
    cases m' with
    | nil =>
      have := h a
      simp only [lookupCell, if_pos] at this
      exact absurd this hc.2.2.1
    | cons c' m' =>
      obtain ⟨a', v'⟩ := c'
      have hc' := (wellPlaced_cons lo a' v' m').mp hm'
      have same : a = a' := by
        rcases lt_trichotomy a a' with hlt | heq | hgt
        · have := h a
          rw [lookupCell, if_pos rfl, lookupCell_of_lt a' a _ _ hlt] at this
          · exact absurd this hc.2.2.1
          · rw [wellPlaced_cons]
            exact ⟨le_refl _, hc'.2⟩
        · exact heq
        · have := h a'
          rw [lookupCell_of_lt a a' _ _ hgt, lookupCell, if_pos rfl] at this
          · exact absurd this.symm hc'.2.2.1
          · rw [wellPlaced_cons]
            exact ⟨le_refl _, hc.2⟩
      subst same
      have hv : v = v' := by simpa [lookupCell] using h a
      subst hv
      have : m = m' := by
        refine ih (a + 1) m' hc.2.2.2 hc'.2.2.2 fun b => ?_
        by_cases hb : b = a
        · subst hb
          rw [lookupCell_of_lt (b + 1) b m hc.2.2.2 (by omega),
            lookupCell_of_lt (b + 1) b m' hc'.2.2.2 (by omega)]
        · simpa [lookupCell, hb] using h b
      rw [this]

/-- Every listed address is below 4096, so an address above reads as its background. -/
theorem lookupCell_of_ge (lo a : Nat) (m : Memory) (hm : wellPlaced lo m = true)
    (h : Config.memSize ≤ a) : lookupCell a m = backgroundByte a := by
  induction m generalizing lo with
  | nil => rfl
  | cons c m ih =>
    obtain ⟨b, w⟩ := c
    rw [wellPlaced_cons] at hm
    rw [lookupCell, if_neg (by omega)]
    exact ih (b + 1) hm.2.2.2

/-- Two canonical memories that read alike are the same list. -/
theorem Memory.ext_of_read (m m' : Memory) (hm : m.wf = true) (hm' : m'.wf = true)
    (h : ∀ a : Nat, a < 4096 → m.read a = m'.read a) : m = m' := by
  refine wellPlaced_ext 0 m m' hm hm' fun a => ?_
  by_cases ha : a < 4096
  · simpa [Memory.read, Nat.mod_eq_of_lt ha] using h a ha
  · rw [lookupCell_of_ge 0 a m hm (by simpa using ha), lookupCell_of_ge 0 a m' hm' (by simpa using ha)]

/-! ### Reset -/

/-- Reset's memory lists nothing, so it is canonical. -/
theorem wf_reset : State.reset.mem.wf = true := rfl

/-- Reset's memory reads as the background everywhere. -/
theorem read_reset (a : Nat) : State.reset.readByte a = backgroundByte (a % 4096) := rfl

end Sys2Proof.Machine
end

