-- ==== Sys2Proof/Laws/State.lean ====
section
/-! SUPPORT. One lemma per field per update of the state, so that no proof unfolds a record update; then
what each read (`reg`, `readByte`, `keyDown`, `halted`) gives after each update, and what `push`, `pop`,
`raise` and `loadRegs` can answer. -/

namespace Sys2Proof.Machine

variable (s : State)


/-! ### setReg -/

@[simp] theorem State.setReg_v (x : Reg) (b : Byte) : (s.setReg x b).v = s.v.set x.val b := rfl
@[simp] theorem State.setReg_i (x : Reg) (b : Byte) : (s.setReg x b).i = s.i := rfl
@[simp] theorem State.setReg_pc (x : Reg) (b : Byte) : (s.setReg x b).pc = s.pc := rfl
@[simp] theorem State.setReg_stack (x : Reg) (b : Byte) : (s.setReg x b).stack = s.stack := rfl
@[simp] theorem State.setReg_sp (x : Reg) (b : Byte) : (s.setReg x b).sp = s.sp := rfl
@[simp] theorem State.setReg_dt (x : Reg) (b : Byte) : (s.setReg x b).dt = s.dt := rfl
@[simp] theorem State.setReg_st (x : Reg) (b : Byte) : (s.setReg x b).st = s.st := rfl
@[simp] theorem State.setReg_fb (x : Reg) (b : Byte) : (s.setReg x b).fb = s.fb := rfl
@[simp] theorem State.setReg_dirty (x : Reg) (b : Byte) : (s.setReg x b).dirty = s.dirty := rfl
@[simp] theorem State.setReg_key (x : Reg) (b : Byte) : (s.setReg x b).key = s.key := rfl
@[simp] theorem State.setReg_fault (x : Reg) (b : Byte) : (s.setReg x b).fault = s.fault := rfl
@[simp] theorem State.setReg_mem (x : Reg) (b : Byte) : (s.setReg x b).mem = s.mem := rfl
@[simp] theorem State.setReg_draws (x : Reg) (b : Byte) : (s.setReg x b).draws = s.draws := rfl

/-! ### setI -/

@[simp] theorem State.setI_v (w : Word) : (s.setI w).v = s.v := rfl
@[simp] theorem State.setI_i (w : Word) : (s.setI w).i = w := rfl
@[simp] theorem State.setI_pc (w : Word) : (s.setI w).pc = s.pc := rfl
@[simp] theorem State.setI_stack (w : Word) : (s.setI w).stack = s.stack := rfl
@[simp] theorem State.setI_sp (w : Word) : (s.setI w).sp = s.sp := rfl
@[simp] theorem State.setI_dt (w : Word) : (s.setI w).dt = s.dt := rfl
@[simp] theorem State.setI_st (w : Word) : (s.setI w).st = s.st := rfl
@[simp] theorem State.setI_fb (w : Word) : (s.setI w).fb = s.fb := rfl
@[simp] theorem State.setI_dirty (w : Word) : (s.setI w).dirty = s.dirty := rfl
@[simp] theorem State.setI_key (w : Word) : (s.setI w).key = s.key := rfl
@[simp] theorem State.setI_fault (w : Word) : (s.setI w).fault = s.fault := rfl
@[simp] theorem State.setI_mem (w : Word) : (s.setI w).mem = s.mem := rfl
@[simp] theorem State.setI_draws (w : Word) : (s.setI w).draws = s.draws := rfl

/-! ### setDt -/

@[simp] theorem State.setDt_v (b : Byte) : (s.setDt b).v = s.v := rfl
@[simp] theorem State.setDt_i (b : Byte) : (s.setDt b).i = s.i := rfl
@[simp] theorem State.setDt_pc (b : Byte) : (s.setDt b).pc = s.pc := rfl
@[simp] theorem State.setDt_stack (b : Byte) : (s.setDt b).stack = s.stack := rfl
@[simp] theorem State.setDt_sp (b : Byte) : (s.setDt b).sp = s.sp := rfl
@[simp] theorem State.setDt_dt (b : Byte) : (s.setDt b).dt = b := rfl
@[simp] theorem State.setDt_st (b : Byte) : (s.setDt b).st = s.st := rfl
@[simp] theorem State.setDt_fb (b : Byte) : (s.setDt b).fb = s.fb := rfl
@[simp] theorem State.setDt_dirty (b : Byte) : (s.setDt b).dirty = s.dirty := rfl
@[simp] theorem State.setDt_key (b : Byte) : (s.setDt b).key = s.key := rfl
@[simp] theorem State.setDt_fault (b : Byte) : (s.setDt b).fault = s.fault := rfl
@[simp] theorem State.setDt_mem (b : Byte) : (s.setDt b).mem = s.mem := rfl
@[simp] theorem State.setDt_draws (b : Byte) : (s.setDt b).draws = s.draws := rfl

/-! ### setSt -/

@[simp] theorem State.setSt_v (b : Byte) : (s.setSt b).v = s.v := rfl
@[simp] theorem State.setSt_i (b : Byte) : (s.setSt b).i = s.i := rfl
@[simp] theorem State.setSt_pc (b : Byte) : (s.setSt b).pc = s.pc := rfl
@[simp] theorem State.setSt_stack (b : Byte) : (s.setSt b).stack = s.stack := rfl
@[simp] theorem State.setSt_sp (b : Byte) : (s.setSt b).sp = s.sp := rfl
@[simp] theorem State.setSt_dt (b : Byte) : (s.setSt b).dt = s.dt := rfl
@[simp] theorem State.setSt_st (b : Byte) : (s.setSt b).st = b := rfl
@[simp] theorem State.setSt_fb (b : Byte) : (s.setSt b).fb = s.fb := rfl
@[simp] theorem State.setSt_dirty (b : Byte) : (s.setSt b).dirty = s.dirty := rfl
@[simp] theorem State.setSt_key (b : Byte) : (s.setSt b).key = s.key := rfl
@[simp] theorem State.setSt_fault (b : Byte) : (s.setSt b).fault = s.fault := rfl
@[simp] theorem State.setSt_mem (b : Byte) : (s.setSt b).mem = s.mem := rfl
@[simp] theorem State.setSt_draws (b : Byte) : (s.setSt b).draws = s.draws := rfl

/-! ### drawTaken -/

@[simp] theorem State.drawTaken_v : s.drawTaken.v = s.v := rfl
@[simp] theorem State.drawTaken_i : s.drawTaken.i = s.i := rfl
@[simp] theorem State.drawTaken_pc : s.drawTaken.pc = s.pc := rfl
@[simp] theorem State.drawTaken_stack : s.drawTaken.stack = s.stack := rfl
@[simp] theorem State.drawTaken_sp : s.drawTaken.sp = s.sp := rfl
@[simp] theorem State.drawTaken_dt : s.drawTaken.dt = s.dt := rfl
@[simp] theorem State.drawTaken_st : s.drawTaken.st = s.st := rfl
@[simp] theorem State.drawTaken_fb : s.drawTaken.fb = s.fb := rfl
@[simp] theorem State.drawTaken_dirty : s.drawTaken.dirty = s.dirty := rfl
@[simp] theorem State.drawTaken_key : s.drawTaken.key = s.key := rfl
@[simp] theorem State.drawTaken_fault : s.drawTaken.fault = s.fault := rfl
@[simp] theorem State.drawTaken_mem : s.drawTaken.mem = s.mem := rfl
@[simp] theorem State.drawTaken_draws : s.drawTaken.draws = s.draws + 1 := rfl

/-! ### advance -/

@[simp] theorem State.advance_v : s.advance.v = s.v := rfl
@[simp] theorem State.advance_i : s.advance.i = s.i := rfl
@[simp] theorem State.advance_pc : s.advance.pc = s.pc + 2 := rfl
@[simp] theorem State.advance_stack : s.advance.stack = s.stack := rfl
@[simp] theorem State.advance_sp : s.advance.sp = s.sp := rfl
@[simp] theorem State.advance_dt : s.advance.dt = s.dt := rfl
@[simp] theorem State.advance_st : s.advance.st = s.st := rfl
@[simp] theorem State.advance_fb : s.advance.fb = s.fb := rfl
@[simp] theorem State.advance_dirty : s.advance.dirty = s.dirty := rfl
@[simp] theorem State.advance_key : s.advance.key = s.key := rfl
@[simp] theorem State.advance_fault : s.advance.fault = s.fault := rfl
@[simp] theorem State.advance_mem : s.advance.mem = s.mem := rfl
@[simp] theorem State.advance_draws : s.advance.draws = s.draws := rfl

/-! ### skipIf -/

@[simp] theorem State.skipIf_v (c : Bool) : (s.skipIf c).v = s.v := rfl
@[simp] theorem State.skipIf_i (c : Bool) : (s.skipIf c).i = s.i := rfl
@[simp] theorem State.skipIf_pc (c : Bool) : (s.skipIf c).pc = s.pc + if c then 4 else 2 := rfl
@[simp] theorem State.skipIf_stack (c : Bool) : (s.skipIf c).stack = s.stack := rfl
@[simp] theorem State.skipIf_sp (c : Bool) : (s.skipIf c).sp = s.sp := rfl
@[simp] theorem State.skipIf_dt (c : Bool) : (s.skipIf c).dt = s.dt := rfl
@[simp] theorem State.skipIf_st (c : Bool) : (s.skipIf c).st = s.st := rfl
@[simp] theorem State.skipIf_fb (c : Bool) : (s.skipIf c).fb = s.fb := rfl
@[simp] theorem State.skipIf_dirty (c : Bool) : (s.skipIf c).dirty = s.dirty := rfl
@[simp] theorem State.skipIf_key (c : Bool) : (s.skipIf c).key = s.key := rfl
@[simp] theorem State.skipIf_fault (c : Bool) : (s.skipIf c).fault = s.fault := rfl
@[simp] theorem State.skipIf_mem (c : Bool) : (s.skipIf c).mem = s.mem := rfl
@[simp] theorem State.skipIf_draws (c : Bool) : (s.skipIf c).draws = s.draws := rfl

/-! ### jump -/

@[simp] theorem State.jump_v (w : Word) : (s.jump w).v = s.v := rfl
@[simp] theorem State.jump_i (w : Word) : (s.jump w).i = s.i := rfl
@[simp] theorem State.jump_pc (w : Word) : (s.jump w).pc = w := rfl
@[simp] theorem State.jump_stack (w : Word) : (s.jump w).stack = s.stack := rfl
@[simp] theorem State.jump_sp (w : Word) : (s.jump w).sp = s.sp := rfl
@[simp] theorem State.jump_dt (w : Word) : (s.jump w).dt = s.dt := rfl
@[simp] theorem State.jump_st (w : Word) : (s.jump w).st = s.st := rfl
@[simp] theorem State.jump_fb (w : Word) : (s.jump w).fb = s.fb := rfl
@[simp] theorem State.jump_dirty (w : Word) : (s.jump w).dirty = s.dirty := rfl
@[simp] theorem State.jump_key (w : Word) : (s.jump w).key = s.key := rfl
@[simp] theorem State.jump_fault (w : Word) : (s.jump w).fault = s.fault := rfl
@[simp] theorem State.jump_mem (w : Word) : (s.jump w).mem = s.mem := rfl
@[simp] theorem State.jump_draws (w : Word) : (s.jump w).draws = s.draws := rfl

/-! ### storeBytes -/

@[simp] theorem State.storeBytes_v (a : Nat) (l : List Byte) : (s.storeBytes a l).v = s.v := rfl
@[simp] theorem State.storeBytes_i (a : Nat) (l : List Byte) : (s.storeBytes a l).i = s.i := rfl
@[simp] theorem State.storeBytes_pc (a : Nat) (l : List Byte) : (s.storeBytes a l).pc = s.pc := rfl
@[simp] theorem State.storeBytes_stack (a : Nat) (l : List Byte) : (s.storeBytes a l).stack = s.stack := rfl
@[simp] theorem State.storeBytes_sp (a : Nat) (l : List Byte) : (s.storeBytes a l).sp = s.sp := rfl
@[simp] theorem State.storeBytes_dt (a : Nat) (l : List Byte) : (s.storeBytes a l).dt = s.dt := rfl
@[simp] theorem State.storeBytes_st (a : Nat) (l : List Byte) : (s.storeBytes a l).st = s.st := rfl
@[simp] theorem State.storeBytes_fb (a : Nat) (l : List Byte) : (s.storeBytes a l).fb = s.fb := rfl
@[simp] theorem State.storeBytes_dirty (a : Nat) (l : List Byte) : (s.storeBytes a l).dirty = s.dirty := rfl
@[simp] theorem State.storeBytes_key (a : Nat) (l : List Byte) : (s.storeBytes a l).key = s.key := rfl
@[simp] theorem State.storeBytes_fault (a : Nat) (l : List Byte) : (s.storeBytes a l).fault = s.fault := rfl
@[simp] theorem State.storeBytes_mem (a : Nat) (l : List Byte) : (s.storeBytes a l).mem = s.mem.writeBytes a l := rfl
@[simp] theorem State.storeBytes_draws (a : Nat) (l : List Byte) : (s.storeBytes a l).draws = s.draws := rfl

/-! ### showFb -/

@[simp] theorem State.showFb_v (fb : Framebuffer) : (s.showFb fb).v = s.v := rfl
@[simp] theorem State.showFb_i (fb : Framebuffer) : (s.showFb fb).i = s.i := rfl
@[simp] theorem State.showFb_pc (fb : Framebuffer) : (s.showFb fb).pc = s.pc := rfl
@[simp] theorem State.showFb_stack (fb : Framebuffer) : (s.showFb fb).stack = s.stack := rfl
@[simp] theorem State.showFb_sp (fb : Framebuffer) : (s.showFb fb).sp = s.sp := rfl
@[simp] theorem State.showFb_dt (fb : Framebuffer) : (s.showFb fb).dt = s.dt := rfl
@[simp] theorem State.showFb_st (fb : Framebuffer) : (s.showFb fb).st = s.st := rfl
@[simp] theorem State.showFb_fb (fb : Framebuffer) : (s.showFb fb).fb = fb := rfl
@[simp] theorem State.showFb_dirty (fb : Framebuffer) : (s.showFb fb).dirty = true := rfl
@[simp] theorem State.showFb_key (fb : Framebuffer) : (s.showFb fb).key = s.key := rfl
@[simp] theorem State.showFb_fault (fb : Framebuffer) : (s.showFb fb).fault = s.fault := rfl
@[simp] theorem State.showFb_mem (fb : Framebuffer) : (s.showFb fb).mem = s.mem := rfl
@[simp] theorem State.showFb_draws (fb : Framebuffer) : (s.showFb fb).draws = s.draws := rfl

/-! ### setFlag -/

@[simp] theorem State.setFlag_v (c : Bool) : (s.setFlag c).v = s.v.set vf.val (flagByte c) := rfl
@[simp] theorem State.setFlag_i (c : Bool) : (s.setFlag c).i = s.i := rfl
@[simp] theorem State.setFlag_pc (c : Bool) : (s.setFlag c).pc = s.pc := rfl
@[simp] theorem State.setFlag_stack (c : Bool) : (s.setFlag c).stack = s.stack := rfl
@[simp] theorem State.setFlag_sp (c : Bool) : (s.setFlag c).sp = s.sp := rfl
@[simp] theorem State.setFlag_dt (c : Bool) : (s.setFlag c).dt = s.dt := rfl
@[simp] theorem State.setFlag_st (c : Bool) : (s.setFlag c).st = s.st := rfl
@[simp] theorem State.setFlag_fb (c : Bool) : (s.setFlag c).fb = s.fb := rfl
@[simp] theorem State.setFlag_dirty (c : Bool) : (s.setFlag c).dirty = s.dirty := rfl
@[simp] theorem State.setFlag_key (c : Bool) : (s.setFlag c).key = s.key := rfl
@[simp] theorem State.setFlag_fault (c : Bool) : (s.setFlag c).fault = s.fault := rfl
@[simp] theorem State.setFlag_mem (c : Bool) : (s.setFlag c).mem = s.mem := rfl
@[simp] theorem State.setFlag_draws (c : Bool) : (s.setFlag c).draws = s.draws := rfl

/-! ### setRegThenFlag -/

@[simp] theorem State.setRegThenFlag_i (x : Reg) (b : Byte) (c : Bool) : (s.setRegThenFlag x b c).i = s.i := rfl
@[simp] theorem State.setRegThenFlag_pc (x : Reg) (b : Byte) (c : Bool) : (s.setRegThenFlag x b c).pc = s.pc := rfl
@[simp] theorem State.setRegThenFlag_stack (x : Reg) (b : Byte) (c : Bool) : (s.setRegThenFlag x b c).stack = s.stack := rfl
@[simp] theorem State.setRegThenFlag_sp (x : Reg) (b : Byte) (c : Bool) : (s.setRegThenFlag x b c).sp = s.sp := rfl
@[simp] theorem State.setRegThenFlag_dt (x : Reg) (b : Byte) (c : Bool) : (s.setRegThenFlag x b c).dt = s.dt := rfl
@[simp] theorem State.setRegThenFlag_st (x : Reg) (b : Byte) (c : Bool) : (s.setRegThenFlag x b c).st = s.st := rfl
@[simp] theorem State.setRegThenFlag_fb (x : Reg) (b : Byte) (c : Bool) : (s.setRegThenFlag x b c).fb = s.fb := rfl
@[simp] theorem State.setRegThenFlag_dirty (x : Reg) (b : Byte) (c : Bool) : (s.setRegThenFlag x b c).dirty = s.dirty := rfl
@[simp] theorem State.setRegThenFlag_key (x : Reg) (b : Byte) (c : Bool) : (s.setRegThenFlag x b c).key = s.key := rfl
@[simp] theorem State.setRegThenFlag_fault (x : Reg) (b : Byte) (c : Bool) : (s.setRegThenFlag x b c).fault = s.fault := rfl
@[simp] theorem State.setRegThenFlag_mem (x : Reg) (b : Byte) (c : Bool) : (s.setRegThenFlag x b c).mem = s.mem := rfl
@[simp] theorem State.setRegThenFlag_draws (x : Reg) (b : Byte) (c : Bool) : (s.setRegThenFlag x b c).draws = s.draws := rfl

/-! ### Registers read after an update -/

/-- A register reads as last written; no register is an alias of another (R21). -/
theorem State.reg_setReg (x r : Reg) (b : Byte) :
    (s.setReg x b).reg r = if r = x then b else s.reg r := by
  simp only [State.reg, State.setReg_v, Vector.getElem_set, Fin.ext_iff]
  by_cases h : x.val = r.val
  · simp [h]
  · simp [h, Ne.symm h]

@[simp] theorem State.reg_setReg_self (x : Reg) (b : Byte) : (s.setReg x b).reg x = b := by
  simp [State.reg_setReg]

theorem State.reg_setReg_of_ne (x r : Reg) (b : Byte) (h : r ≠ x) : (s.setReg x b).reg r = s.reg r := by
  simp [State.reg_setReg, h]

/-- The result goes to `Vx` and then the flag to `VF`, so the flag wins where x = 0xF (R121). -/
theorem State.reg_setRegThenFlag (x r : Reg) (b : Byte) (c : Bool) :
    (s.setRegThenFlag x b c).reg r =
      if r = vf then flagByte c else if r = x then b else s.reg r := by
  simp [State.setRegThenFlag, State.setFlag, State.reg_setReg]

theorem State.reg_setFlag (r : Reg) (c : Bool) :
    (s.setFlag c).reg r = if r = vf then flagByte c else s.reg r := by
  simp [State.setFlag, State.reg_setReg]

@[simp] theorem State.reg_setI (w : Word) (r : Reg) : (s.setI w).reg r = s.reg r := rfl
@[simp] theorem State.reg_setDt (b : Byte) (r : Reg) : (s.setDt b).reg r = s.reg r := rfl
@[simp] theorem State.reg_setSt (b : Byte) (r : Reg) : (s.setSt b).reg r = s.reg r := rfl
@[simp] theorem State.reg_drawTaken (r : Reg) : s.drawTaken.reg r = s.reg r := rfl
@[simp] theorem State.reg_advance (r : Reg) : s.advance.reg r = s.reg r := rfl
@[simp] theorem State.reg_skipIf (c : Bool) (r : Reg) : (s.skipIf c).reg r = s.reg r := rfl
@[simp] theorem State.reg_jump (w : Word) (r : Reg) : (s.jump w).reg r = s.reg r := rfl
@[simp] theorem State.reg_storeBytes (a : Nat) (l : List Byte) (r : Reg) :
    (s.storeBytes a l).reg r = s.reg r := rfl
@[simp] theorem State.reg_showFb (fb : Framebuffer) (r : Reg) : (s.showFb fb).reg r = s.reg r := rfl

/-! ### Memory read after an update that does not store -/

@[simp] theorem State.readByte_setReg (x : Reg) (b : Byte) (a : Nat) :
    (s.setReg x b).readByte a = s.readByte a := rfl
@[simp] theorem State.readByte_setFlag (c : Bool) (a : Nat) :
    (s.setFlag c).readByte a = s.readByte a := rfl
@[simp] theorem State.readByte_setRegThenFlag (x : Reg) (b : Byte) (c : Bool) (a : Nat) :
    (s.setRegThenFlag x b c).readByte a = s.readByte a := rfl
@[simp] theorem State.readByte_setI (w : Word) (a : Nat) : (s.setI w).readByte a = s.readByte a := rfl
@[simp] theorem State.readByte_setDt (b : Byte) (a : Nat) : (s.setDt b).readByte a = s.readByte a := rfl
@[simp] theorem State.readByte_setSt (b : Byte) (a : Nat) : (s.setSt b).readByte a = s.readByte a := rfl
@[simp] theorem State.readByte_drawTaken (a : Nat) : s.drawTaken.readByte a = s.readByte a := rfl
@[simp] theorem State.readByte_advance (a : Nat) : s.advance.readByte a = s.readByte a := rfl
@[simp] theorem State.readByte_skipIf (c : Bool) (a : Nat) :
    (s.skipIf c).readByte a = s.readByte a := rfl
@[simp] theorem State.readByte_jump (w : Word) (a : Nat) : (s.jump w).readByte a = s.readByte a := rfl
@[simp] theorem State.readByte_showFb (fb : Framebuffer) (a : Nat) :
    (s.showFb fb).readByte a = s.readByte a := rfl
theorem State.readByte_storeBytes (a b : Nat) (l : List Byte) :
    (s.storeBytes a l).readByte b = (s.mem.writeBytes a l).read b := rfl

/-! ### The stack -/

/-- A call pushes exactly where fewer than sixteen addresses are stacked (R27, R103). -/
theorem State.push_of_lt (ret : Word) (h : s.sp.val < 16) :
    s.push ret =
      some { s with stack := s.stack.set s.sp.val ret, sp := ⟨s.sp.val + 1, by omega⟩ } := by
  simp [State.push, h]

theorem State.push_of_full (ret : Word) (h : ¬ s.sp.val < 16) : s.push ret = none := by
  simp [State.push, h]

/-- A return pops exactly where some address is stacked (R27, R101). -/
theorem State.pop_of_pos (h : s.sp.val ≠ 0) :
    s.pop = some (s.stack[s.sp.val - 1], { s with sp := ⟨s.sp.val - 1, by omega⟩ }) := by
  simp [State.pop, h]

theorem State.pop_of_empty (h : s.sp.val = 0) : s.pop = none := by
  simp [State.pop, h]

/-- A pushed address is the one the next pop gives, and the pop undoes the push of `SP`. -/
theorem State.pop_push (ret : Word) (t : State) (h : s.push ret = some t) :
    ∃ u : State, t.pop = some (ret, u) ∧ u = { s with stack := t.stack } := by
  by_cases hs : s.sp.val < 16
  · rw [s.push_of_lt ret hs] at h
    cases h
    refine ⟨{ s with stack := s.stack.set s.sp.val ret }, ?_, rfl⟩
    rw [State.pop_of_pos _ (Nat.succ_ne_zero _)]
    simp
  · simp [s.push_of_full ret hs] at h

/-! ### Faults -/

theorem State.halted_eq_false (h : s.fault = none) : s.halted = false := by
  simp [State.halted, h]

theorem State.halted_eq_true (f : FaultRecord) (h : s.fault = some f) : s.halted = true := by
  simp [State.halted, h]

/-- What taking a fault does, all of it (R171). -/
theorem State.raise_of_none (cause : FaultCause) (op : Word) (h : s.fault = none) :
    s.raise cause op = { s with fault := some { cause := cause, opcode := op, pc := s.pc } } := by
  simp [State.raise, h]

/-- `FAULT` keeps its first value (R172). -/
theorem State.raise_of_some (cause : FaultCause) (op : Word) (f : FaultRecord)
    (h : s.fault = some f) : s.raise cause op = s := by
  simp [State.raise, h]

/-- In either case only `FAULT` may differ. -/
theorem State.raise_only_fault (cause : FaultCause) (op : Word) :
    s.raise cause op = { s with fault := (s.raise cause op).fault } := by
  cases h : s.fault with
  | none => simp [s.raise_of_none cause op h]
  | some f => simp [s.raise_of_some cause op f h]

@[simp] theorem State.raise_v (cause : FaultCause) (op : Word) : (s.raise cause op).v = s.v := by
  rw [s.raise_only_fault]
@[simp] theorem State.raise_i (cause : FaultCause) (op : Word) : (s.raise cause op).i = s.i := by
  rw [s.raise_only_fault]
@[simp] theorem State.raise_pc (cause : FaultCause) (op : Word) : (s.raise cause op).pc = s.pc := by
  rw [s.raise_only_fault]
@[simp] theorem State.raise_stack (cause : FaultCause) (op : Word) : (s.raise cause op).stack = s.stack := by
  rw [s.raise_only_fault]
@[simp] theorem State.raise_sp (cause : FaultCause) (op : Word) : (s.raise cause op).sp = s.sp := by
  rw [s.raise_only_fault]
@[simp] theorem State.raise_dt (cause : FaultCause) (op : Word) : (s.raise cause op).dt = s.dt := by
  rw [s.raise_only_fault]
@[simp] theorem State.raise_st (cause : FaultCause) (op : Word) : (s.raise cause op).st = s.st := by
  rw [s.raise_only_fault]
@[simp] theorem State.raise_fb (cause : FaultCause) (op : Word) : (s.raise cause op).fb = s.fb := by
  rw [s.raise_only_fault]
@[simp] theorem State.raise_dirty (cause : FaultCause) (op : Word) : (s.raise cause op).dirty = s.dirty := by
  rw [s.raise_only_fault]
@[simp] theorem State.raise_key (cause : FaultCause) (op : Word) : (s.raise cause op).key = s.key := by
  rw [s.raise_only_fault]
@[simp] theorem State.raise_mem (cause : FaultCause) (op : Word) : (s.raise cause op).mem = s.mem := by
  rw [s.raise_only_fault]
@[simp] theorem State.raise_draws (cause : FaultCause) (op : Word) : (s.raise cause op).draws = s.draws := by
  rw [s.raise_only_fault]
@[simp] theorem State.reg_raise (cause : FaultCause) (op : Word) (r : Reg) :
    (s.raise cause op).reg r = s.reg r := by
  simp [State.reg]
@[simp] theorem State.readByte_raise (cause : FaultCause) (op : Word) (a : Nat) :
    (s.raise cause op).readByte a = s.readByte a := by
  simp [State.readByte]

/-! ### Loading registers -/

/-- `loadRegs` writes registers and nothing else. -/
theorem State.loadRegs_only_v (l : List Reg) : s.loadRegs l = { s with v := (s.loadRegs l).v } := by
  induction l generalizing s with
  | nil => rfl
  | cons r l ih =>
    rw [State.loadRegs, ih]
    rfl

@[simp] theorem State.loadRegs_i (l : List Reg) : (s.loadRegs l).i = s.i := by
  rw [s.loadRegs_only_v]
@[simp] theorem State.loadRegs_pc (l : List Reg) : (s.loadRegs l).pc = s.pc := by
  rw [s.loadRegs_only_v]
@[simp] theorem State.loadRegs_stack (l : List Reg) : (s.loadRegs l).stack = s.stack := by
  rw [s.loadRegs_only_v]
@[simp] theorem State.loadRegs_sp (l : List Reg) : (s.loadRegs l).sp = s.sp := by
  rw [s.loadRegs_only_v]
@[simp] theorem State.loadRegs_dt (l : List Reg) : (s.loadRegs l).dt = s.dt := by
  rw [s.loadRegs_only_v]
@[simp] theorem State.loadRegs_st (l : List Reg) : (s.loadRegs l).st = s.st := by
  rw [s.loadRegs_only_v]
@[simp] theorem State.loadRegs_fb (l : List Reg) : (s.loadRegs l).fb = s.fb := by
  rw [s.loadRegs_only_v]
@[simp] theorem State.loadRegs_dirty (l : List Reg) : (s.loadRegs l).dirty = s.dirty := by
  rw [s.loadRegs_only_v]
@[simp] theorem State.loadRegs_key (l : List Reg) : (s.loadRegs l).key = s.key := by
  rw [s.loadRegs_only_v]
@[simp] theorem State.loadRegs_fault (l : List Reg) : (s.loadRegs l).fault = s.fault := by
  rw [s.loadRegs_only_v]
@[simp] theorem State.loadRegs_mem (l : List Reg) : (s.loadRegs l).mem = s.mem := by
  rw [s.loadRegs_only_v]
@[simp] theorem State.loadRegs_draws (l : List Reg) : (s.loadRegs l).draws = s.draws := by
  rw [s.loadRegs_only_v]
@[simp] theorem State.readByte_loadRegs (l : List Reg) (a : Nat) :
    (s.loadRegs l).readByte a = s.readByte a := by
  simp [State.readByte]

/-- Each register of the list holds its byte of memory; every other register is unchanged (R146). -/
theorem State.reg_loadRegs (l : List Reg) (r : Reg) :
    (s.loadRegs l).reg r = if r ∈ l then s.readByte (s.dataAddr r.val) else s.reg r := by
  induction l generalizing s with
  | nil => simp [State.loadRegs]
  | cons q l ih =>
    have hq : (s.setReg q (s.readByte (s.dataAddr q.val))).dataAddr = s.dataAddr := rfl
    rw [State.loadRegs, ih, hq]
    by_cases hl : r ∈ l
    · simp [hl]
    · by_cases h : r = q
      · simp [h]
      · simp [hl, h, State.reg_setReg_of_ne]

/-- `V0`..`Vx` are the registers up to x (R145, R146). -/
theorem mem_regsUpTo (x r : Reg) : r ∈ regsUpTo x ↔ r ≤ x := by
  revert x r
  decide

/-- `regsUpTo x` lists x + 1 registers, register k at place k. -/
theorem regsUpTo_getElem? (x : Reg) (k : Nat) :
    (regsUpTo x)[k]? = if h : k ≤ x.val then some ⟨k, by omega⟩ else none := by
  by_cases h : k ≤ x.val
  · have key : ∀ (x k : Reg), k ≤ x → (regsUpTo x)[k.val]? = some k := by decide
    simpa [h] using key x ⟨k, by omega⟩ h
  · have len : ∀ x : Reg, (regsUpTo x).length = x.val + 1 := by decide
    have hx := len x
    rw [dif_neg h, List.getElem?_eq_none_iff]
    omega

theorem length_regsUpTo (x : Reg) : (regsUpTo x).length = x.val + 1 := by
  revert x
  decide

/-! ### Keys -/

/-- `lowestKey` is a pressed key below which none is pressed (R164). -/
theorem State.lowestKey_eq_some (k : Key) (h : s.lowestKey = some k) :
    s.keyDown k = true ∧ ∀ j : Key, j < k → s.keyDown j = false := by
  obtain ⟨hk, as, bs, hsplit, hbefore⟩ := List.find?_eq_some_iff_append.mp h
  refine ⟨hk, fun j hj => ?_⟩
  have sorted : allSixteen.Pairwise (· < ·) := by decide
  have all : ∀ j : Key, j ∈ allSixteen := by decide
  have hmem := all j
  rw [hsplit] at hmem sorted
  have hafter := (List.pairwise_append.mp sorted).2.1
  rcases List.mem_append.mp hmem with hj' | hj'
  · simpa using hbefore j hj'
  · rcases List.mem_cons.mp hj' with rfl | hb
    · exact absurd hj (lt_irrefl _)
    · exact absurd hj (not_lt.mpr (le_of_lt ((List.pairwise_cons.mp hafter).1 j hb)))

/-- No key is captured exactly where none is pressed (R164). -/
theorem State.lowestKey_eq_none : s.lowestKey = none ↔ ∀ k : Key, s.keyDown k = false := by
  have all : ∀ j : Key, j ∈ allSixteen := by decide
  simp [State.lowestKey, List.find?_eq_none, all]

end Sys2Proof.Machine
end

