-- ==== Sys2Proof/Laws/Exec.lean ====
section
/-! SUPPORT. What the meanings with more than one outcome can answer, each said once: the return, the call and
the key wait; and what a step is in each of its three cases. -/

namespace Sys2Proof.Machine

variable (s : State)

/-- A return pops, or faults on an empty stack (R101, R175). -/
theorem execRet_cases :
    (∃ _h : s.sp.val ≠ 0, execRet s =
      .next { s with pc := s.stack[s.sp.val - 1], sp := ⟨s.sp.val - 1, by omega⟩ }) ∨
    (s.sp.val = 0 ∧ execRet s = .next (s.raise .stackUnderflow (encode .ret))) := by
  by_cases h : s.sp.val = 0
  · exact .inr ⟨h, by simp [execRet, s.pop_of_empty h]⟩
  · exact .inl ⟨h, by simp [execRet, s.pop_of_pos h, State.jump]⟩

/-- A call pushes and jumps, or faults on a full stack (R103, R174). -/
theorem execCallNnn_cases (nnn : Addr) :
    (∃ h : s.sp.val < 16, execCallNnn nnn s =
      .next { s with
        stack := s.stack.set s.sp.val (s.pc + 2), sp := ⟨s.sp.val + 1, by omega⟩,
        pc := addrOperand nnn }) ∨
    (s.sp.val = 16 ∧ execCallNnn nnn s = .next (s.raise .stackOverflow (encode (.callNnn nnn)))) := by
  by_cases h : s.sp.val < 16
  · exact .inl ⟨h, by simp [execCallNnn, s.push_of_lt _ h, State.jump]⟩
  · exact .inr ⟨by omega, by simp [execCallNnn, s.push_of_full _ h]⟩

/-- The key wait captures a key, or changes nothing (R164). -/
theorem execLdVxK_cases (x : Reg) :
    (∃ k : Key, s.lowestKey = some k ∧
      execLdVxK x s = .next (s.setReg x (BitVec.ofNat 8 k.val)).advance) ∨
    (s.lowestKey = none ∧ execLdVxK x s = .next s) := by
  unfold execLdVxK
  cases s.lowestKey with
  | some k => exact .inl ⟨k, rfl, rfl⟩
  | none => exact .inr ⟨rfl, rfl⟩

/-- The step of a halted core (R172). -/
theorem step_of_halted (f : FaultRecord) (h : s.fault = some f) : step s = .next s := by
  simp [step, s.halted_eq_true f h]

/-- The step that decodes (R184). -/
theorem step_of_decoded (i : Instr) (h : s.fault = none) (hd : decodeWord s.fetchWord = .ok i) :
    step s = exec i s := by
  simp [step, s.halted_eq_false h, hd]

/-- The step that does not (R173, R184). -/
theorem step_of_undecoded (e : DecodeError) (h : s.fault = none)
    (hd : decodeWord s.fetchWord = .error e) :
    step s = .next (s.raise .decodeFault s.fetchWord) := by
  simp [step, s.halted_eq_false h, hd, State.raiseDecodeFault]

end Sys2Proof.Machine
end

