-- ==== Sys2Proof/Laws/Operands.lean ====
section
/-! SUPPORT. The value of each operand form and of each flag, as a number. -/

namespace Sys2Proof.Machine

/-- `nnn` is zero-extended (R72). -/
@[simp] theorem toNat_addrOperand (nnn : Addr) : (addrOperand nnn).toNat = nnn.toNat := by
  have := nnn.isLt
  simp only [addrOperand, BitVec.toNat_setWidth]
  omega

/-- The indexed target fits 16 bits (R108). -/
@[simp] theorem toNat_indexedTarget (nnn : Addr) (b : Byte) :
    (indexedTarget nnn b).toNat = nnn.toNat + b.toNat := by
  have := nnn.isLt
  have := b.isLt
  simp only [indexedTarget, BitVec.toNat_ofNat]
  omega

/-- The masked sum wraps at 4096, not at 65536 (R142). -/
@[simp] theorem toNat_maskedIndexSum (i : Word) (b : Byte) :
    (maskedIndexSum i b).toNat = (i.toNat + b.toNat) % 4096 := by
  simp only [maskedIndexSum, BitVec.toNat_ofNat]
  omega

/-- The glyph address is five times the whole byte (R143). -/
@[simp] theorem toNat_glyphAddr (b : Byte) : (glyphAddr b).toNat = b.toNat * 5 := by
  have := b.isLt
  simp only [glyphAddr, Config.fontBase, Config.glyphSize, BitVec.toNat_ofNat]
  omega

@[simp] theorem toNat_flagByte (c : Bool) : (flagByte c).toNat = if c then 1 else 0 := by
  cases c <;> rfl

/-- The three digits are their own values, 0..9 (R144). -/
theorem toNat_bcdDigits (b : Byte) :
    (bcdDigits b).map BitVec.toNat = [b.toNat / 100, b.toNat / 10 % 10, b.toNat % 10] := by
  have := b.isLt
  simp only [bcdDigits, List.map_cons, List.map_nil, BitVec.toNat_ofNat, List.cons.injEq, and_true]
  omega

end Sys2Proof.Machine
end

