-- ==== Sys2Proof/Laws/PerInstr.lean ====
section
/-! SUPPORT. A law of every instruction, one lemma per constructor: its encoded word lies in its own row of
R75, that is `word AND mask = match`. -/

namespace Sys2Proof.Laws.RowMatch

/-- The word of an instruction is selected by its row's mask and match (R75). -/
def Statement (i : Instr) : Prop := encode i &&& maskOf i = matchOf i

theorem cls : Statement (.cls) := rfl

theorem ret : Statement (.ret) := rfl

theorem jpNnn (nnn : Addr) : Statement (.jpNnn nnn) :=
  and_F000_eq _ _ (by simp [encode, matchOf, toNat_formatNnn]; omega)

theorem callNnn (nnn : Addr) : Statement (.callNnn nnn) :=
  and_F000_eq _ _ (by simp [encode, matchOf, toNat_formatNnn]; omega)

theorem seVxKk (x : Reg) (kk : Byte) : Statement (.seVxKk x kk) :=
  and_F000_eq _ _ (by simp [encode, matchOf, toNat_formatXkk]; omega)

theorem sneVxKk (x : Reg) (kk : Byte) : Statement (.sneVxKk x kk) :=
  and_F000_eq _ _ (by simp [encode, matchOf, toNat_formatXkk]; omega)

theorem seVxVy (x y : Reg) : Statement (.seVxVy x y) :=
  and_F00F_eq _ _ (by simp [encode, matchOf, toNat_formatXyn]; omega)

theorem ldVxKk (x : Reg) (kk : Byte) : Statement (.ldVxKk x kk) :=
  and_F000_eq _ _ (by simp [encode, matchOf, toNat_formatXkk]; omega)

theorem addVxKk (x : Reg) (kk : Byte) : Statement (.addVxKk x kk) :=
  and_F000_eq _ _ (by simp [encode, matchOf, toNat_formatXkk]; omega)

theorem ldVxVy (x y : Reg) : Statement (.ldVxVy x y) :=
  and_F00F_eq _ _ (by simp [encode, matchOf, toNat_formatXyn]; omega)

theorem orVxVy (x y : Reg) : Statement (.orVxVy x y) :=
  and_F00F_eq _ _ (by simp [encode, matchOf, toNat_formatXyn]; omega)

theorem andVxVy (x y : Reg) : Statement (.andVxVy x y) :=
  and_F00F_eq _ _ (by simp [encode, matchOf, toNat_formatXyn]; omega)

theorem xorVxVy (x y : Reg) : Statement (.xorVxVy x y) :=
  and_F00F_eq _ _ (by simp [encode, matchOf, toNat_formatXyn]; omega)

theorem addVxVy (x y : Reg) : Statement (.addVxVy x y) :=
  and_F00F_eq _ _ (by simp [encode, matchOf, toNat_formatXyn]; omega)

theorem subVxVy (x y : Reg) : Statement (.subVxVy x y) :=
  and_F00F_eq _ _ (by simp [encode, matchOf, toNat_formatXyn]; omega)

theorem shrVx (x y : Reg) : Statement (.shrVx x y) :=
  and_F00F_eq _ _ (by simp [encode, matchOf, toNat_formatXyn]; omega)

theorem subnVxVy (x y : Reg) : Statement (.subnVxVy x y) :=
  and_F00F_eq _ _ (by simp [encode, matchOf, toNat_formatXyn]; omega)

theorem shlVx (x y : Reg) : Statement (.shlVx x y) :=
  and_F00F_eq _ _ (by simp [encode, matchOf, toNat_formatXyn]; omega)

theorem sneVxVy (x y : Reg) : Statement (.sneVxVy x y) :=
  and_F00F_eq _ _ (by simp [encode, matchOf, toNat_formatXyn]; omega)

theorem ldINnn (nnn : Addr) : Statement (.ldINnn nnn) :=
  and_F000_eq _ _ (by simp [encode, matchOf, toNat_formatNnn]; omega)

theorem jpV0Nnn (nnn : Addr) : Statement (.jpV0Nnn nnn) :=
  and_F000_eq _ _ (by simp [encode, matchOf, toNat_formatNnn]; omega)

theorem rndVxKk (x : Reg) (kk : Byte) : Statement (.rndVxKk x kk) :=
  and_F000_eq _ _ (by simp [encode, matchOf, toNat_formatXkk]; omega)

theorem drwVxVyN (x y : Reg) (n : Fin 16) : Statement (.drwVxVyN x y n) :=
  and_F000_eq _ _ (by simp [encode, matchOf, toNat_formatXyn]; omega)

theorem skpVx (x : Reg) : Statement (.skpVx x) :=
  and_F0FF_eq _ _ (by simp [encode, matchOf, toNat_formatXkk]; omega)

theorem sknpVx (x : Reg) : Statement (.sknpVx x) :=
  and_F0FF_eq _ _ (by simp [encode, matchOf, toNat_formatXkk]; omega)

theorem ldVxDt (x : Reg) : Statement (.ldVxDt x) :=
  and_F0FF_eq _ _ (by simp [encode, matchOf, toNat_formatXkk]; omega)

theorem ldVxK (x : Reg) : Statement (.ldVxK x) :=
  and_F0FF_eq _ _ (by simp [encode, matchOf, toNat_formatXkk]; omega)

theorem ldDtVx (x : Reg) : Statement (.ldDtVx x) :=
  and_F0FF_eq _ _ (by simp [encode, matchOf, toNat_formatXkk]; omega)

theorem ldStVx (x : Reg) : Statement (.ldStVx x) :=
  and_F0FF_eq _ _ (by simp [encode, matchOf, toNat_formatXkk]; omega)

theorem addIVx (x : Reg) : Statement (.addIVx x) :=
  and_F0FF_eq _ _ (by simp [encode, matchOf, toNat_formatXkk]; omega)

theorem ldFVx (x : Reg) : Statement (.ldFVx x) :=
  and_F0FF_eq _ _ (by simp [encode, matchOf, toNat_formatXkk]; omega)

theorem ldBVx (x : Reg) : Statement (.ldBVx x) :=
  and_F0FF_eq _ _ (by simp [encode, matchOf, toNat_formatXkk]; omega)

theorem ldImemVx (x : Reg) : Statement (.ldImemVx x) :=
  and_F0FF_eq _ _ (by simp [encode, matchOf, toNat_formatXkk]; omega)

theorem ldVxImem (x : Reg) : Statement (.ldVxImem x) :=
  and_F0FF_eq _ _ (by simp [encode, matchOf, toNat_formatXkk]; omega)

end Sys2Proof.Laws.RowMatch
end

