-- ==== Sys2Proof/Tests/Slice0.lean ====
section
/-! SUPPORT. Own tests. Expected results come from the spec: the encodings of 30_encoding.md R71 and R75, and the
vectors of 95_test_vectors.md, whose ids are named. Each test is about one event on a small state. Then, for
each obligation that has hypotheses, a theorem that exhibits a state and operands meeting them. -/

namespace Sys2Proof.Tests

open Sys2Proof.Machine

/-! ## Helpers -/

/-- The next state an outcome holds, if it holds one. -/
def nextOf : Host.Outcome State Fault Refusal → Option State
  | .next t => some t
  | .fault _ => none
  | .refused _ => none

/-- One step with the word `w` at `PC`. -/
def run (w : Nat) (s : State) : Option State := nextOf (step (s.withFetchWord 16 w))

/-- Reset with the registers of `l` set. -/
def regs (l : List (Reg × Byte)) : State := l.foldl (fun s p => s.setReg p.1 p.2) State.reset

/-- `s` with one key pressed. -/
def press (k : Key) (s : State) : State := setKeys (s.key.set k.val true) s

/-- `s` with `SP` = n and every slot holding `w`. -/
def stacked (n : Fin 17) (w : Word) (s : State) : State :=
  { s with sp := n, stack := Vector.replicate 16 w }

/-- `s` with the pixel (px, py) toggled. -/
def lit (px py : Nat) (s : State) : State := { s with fb := s.fb.toggle px py }

/-- `V[x]`, `VF`, `PC` after a run. -/
def seen (x : Reg) (o : Option State) : Option (Byte × Byte × Word) :=
  o.map fun t => (t.reg x, t.reg 15, t.pc)

/-- `PC` after a run. -/
def pcOf (o : Option State) : Option Word := o.map fun t => t.pc

/-- `FAULT` and `PC` after a run. -/
def faultOf (o : Option State) : Option (Option FaultRecord × Word) := o.map fun t => (t.fault, t.pc)

/-- Some bytes of memory after a run. -/
def bytesOf (l : List Nat) (o : Option State) : Option (List Byte) := o.map fun t => l.map t.readByte

/-- The pixels that are 1 in rows 31, 0 and 1 after a run, and `VF` and `DIRTY`. -/
def drawn (o : Option State) : Option (List (Nat × Nat) × Byte × Bool) :=
  o.map fun t =>
    ((([31, 0, 1].map fun py => (List.range 64).map fun px => (px, py)).flatten).filter
      (fun p => t.fb.pixel p.1 p.2), t.reg 15, t.dirty)

/-! ## Decoding: one word of every constructor, written out from its encoding (R71, R75) -/

theorem test_decode_fixed :
    decodeWord 0b0000_0000_1110_0000 = .ok .cls ∧ decodeWord 0b0000_0000_1110_1110 = .ok .ret := by
  decide

theorem test_decode_nnn :
    decodeWord 0b0001_1010_1011_1100 = .ok (.jpNnn 0xABC) ∧
    decodeWord 0b0010_1010_1011_1100 = .ok (.callNnn 0xABC) ∧
    decodeWord 0b1010_1010_1011_1100 = .ok (.ldINnn 0xABC) ∧
    decodeWord 0b1011_1010_1011_1100 = .ok (.jpV0Nnn 0xABC) := by
  decide

theorem test_decode_xkk :
    decodeWord 0b0011_1011_0100_0010 = .ok (.seVxKk 0xB 0x42) ∧
    decodeWord 0b0100_1011_0100_0010 = .ok (.sneVxKk 0xB 0x42) ∧
    decodeWord 0b0110_1011_0100_0010 = .ok (.ldVxKk 0xB 0x42) ∧
    decodeWord 0b0111_1011_0100_0010 = .ok (.addVxKk 0xB 0x42) ∧
    decodeWord 0b1100_1011_0100_0010 = .ok (.rndVxKk 0xB 0x42) := by
  decide

theorem test_decode_xy_skips :
    decodeWord 0b0101_1011_0100_0000 = .ok (.seVxVy 0xB 0x4) ∧
    decodeWord 0b1001_1011_0100_0000 = .ok (.sneVxVy 0xB 0x4) := by
  decide

theorem test_decode_xy_alu :
    decodeWord 0b1000_1011_0100_0000 = .ok (.ldVxVy 0xB 0x4) ∧
    decodeWord 0b1000_1011_0100_0001 = .ok (.orVxVy 0xB 0x4) ∧
    decodeWord 0b1000_1011_0100_0010 = .ok (.andVxVy 0xB 0x4) ∧
    decodeWord 0b1000_1011_0100_0011 = .ok (.xorVxVy 0xB 0x4) ∧
    decodeWord 0b1000_1011_0100_0100 = .ok (.addVxVy 0xB 0x4) ∧
    decodeWord 0b1000_1011_0100_0101 = .ok (.subVxVy 0xB 0x4) ∧
    decodeWord 0b1000_1011_0100_0110 = .ok (.shrVx 0xB 0x4) ∧
    decodeWord 0b1000_1011_0100_0111 = .ok (.subnVxVy 0xB 0x4) ∧
    decodeWord 0b1000_1011_0100_1110 = .ok (.shlVx 0xB 0x4) := by
  decide

theorem test_decode_xyn : decodeWord 0b1101_1011_0100_1001 = .ok (.drwVxVyN 0xB 0x4 0x9) := by
  decide

theorem test_decode_x_keys :
    decodeWord 0b1110_1011_1001_1110 = .ok (.skpVx 0xB) ∧
    decodeWord 0b1110_1011_1010_0001 = .ok (.sknpVx 0xB) := by
  decide

theorem test_decode_x_misc :
    decodeWord 0b1111_1011_0000_0111 = .ok (.ldVxDt 0xB) ∧
    decodeWord 0b1111_1011_0000_1010 = .ok (.ldVxK 0xB) ∧
    decodeWord 0b1111_1011_0001_0101 = .ok (.ldDtVx 0xB) ∧
    decodeWord 0b1111_1011_0001_1000 = .ok (.ldStVx 0xB) ∧
    decodeWord 0b1111_1011_0001_1110 = .ok (.addIVx 0xB) ∧
    decodeWord 0b1111_1011_0010_1001 = .ok (.ldFVx 0xB) ∧
    decodeWord 0b1111_1011_0011_0011 = .ok (.ldBVx 0xB) ∧
    decodeWord 0b1111_1011_0101_0101 = .ok (.ldImemVx 0xB) ∧
    decodeWord 0b1111_1011_0110_0101 = .ok (.ldVxImem 0xB) := by
  decide

/-- E3 to E6, E9, E12, E17, E20, E24, E27: words no row matches. -/
theorem test_decode_misses :
    [0x0000, 0x00E1, 0x0123, 0x00FE, 0x5121, 0x8128, 0x9121, 0xE19F, 0xF100, 0xFFFF].map
      (decodeTableWord 16) = List.replicate 10 none := by
  decide

/-- R54: the high byte comes first. -/
theorem test_decode_bytes :
    decodeBytes [0x12, 0x34, 0x56] = .ok (.jpNnn 0x234, [0x56]) ∧
    decodeBytes [0x12] = .error .truncated := by
  decide

/-! ## Well-formedness: an ill-formed term for each check, which the check refuses -/

/-- X5, X6: 257 bytes at 0xF00 pass 0xFFF. -/
theorem test_loadFits : loadFits 0x0F00 256 = true ∧ loadFits 0x0F00 257 = false := by
  decide

/-- X7, X8: the limit is 3584 bytes. -/
theorem test_imageFits :
    imageFits (List.replicate 3584 0) = true ∧ imageFits (List.replicate 3585 0) = false := by
  rw [imageFits, imageFits, List.length_replicate, List.length_replicate]
  decide

theorem test_fontFits :
    fontFits fontTable = true ∧ fontFits (fontTable.take 79) = false := by
  decide

/-- There is no ill-formed instruction: an operand out of its field's range is not of the operand's type. -/
theorem test_no_ill_formed_instruction (i : Instr) : i.wf = true := by
  cases i <;> rfl

/-! ## Control flow (95_test_vectors.md section 2.2) -/

/-- F7. -/
theorem test_ret : (run 0x00EE (stacked 1 0x0456 State.reset)).map (fun t => (t.pc, t.sp)) =
    some (0x0456, 0) := by
  decide

/-- F8. -/
theorem test_ret_underflow :
    faultOf (run 0x00EE State.reset) = some (some ⟨.stackUnderflow, 0x00EE, 0x0200⟩, 0x0200) := by
  decide

/-- F2: an odd target is not checked. -/
theorem test_jp : pcOf (run 0x1203 State.reset) = some 0x0203 := by
  decide

/-- F5. -/
theorem test_call :
    (run 0x2ABC ((stacked 15 0x0999 State.reset).jump 0x0204)).map (fun t => (t.pc, t.sp, t.stack[15], t.stack[14])) =
      some (0x0ABC, 16, 0x0206, 0x0999) := by
  decide

/-- F6. -/
theorem test_call_overflow :
    faultOf (run 0x2ABC ((stacked 16 0 State.reset).jump 0x0204)) =
      some (some ⟨.stackOverflow, 0x2ABC, 0x0204⟩, 0x0204) := by
  decide

/-- F10, F11. -/
theorem test_se_kk :
    pcOf (run 0x3342 (regs [(3, 0x42)])) = some 0x0204 ∧
    pcOf (run 0x3343 (regs [(3, 0x42)])) = some 0x0202 := by
  decide

/-- F12, F13. -/
theorem test_sne_kk :
    pcOf (run 0x4342 (regs [(3, 0x42)])) = some 0x0202 ∧
    pcOf (run 0x4343 (regs [(3, 0x42)])) = some 0x0204 := by
  decide

/-- F14, F15. -/
theorem test_se_vy :
    pcOf (run 0x5340 (regs [(3, 0x42), (4, 0x42)])) = some 0x0204 ∧
    pcOf (run 0x5340 (regs [(3, 0x42), (4, 0x43)])) = some 0x0202 := by
  decide

/-- F17, F18. -/
theorem test_sne_vy :
    pcOf (run 0x9340 (regs [(3, 0x42), (4, 0x43)])) = some 0x0204 ∧
    pcOf (run 0x9340 (regs [(3, 0x42), (4, 0x42)])) = some 0x0202 := by
  decide

/-- F21: the sum is not masked in the register. -/
theorem test_jp_v0 : pcOf (run 0xBFFF (regs [(0, 0xFF)])) = some 0x10FE := by
  decide

/-- F26: a skip's +4 is 16-bit. -/
theorem test_skip_past_end : pcOf (run 0x3300 (State.reset.jump 0x0FFE)) = some 0x1002 := by
  decide

/-- F25: the second byte is fetched from (PC + 1) mod 4096. -/
theorem test_fetch_wraps : pcOf (run 0x1234 (State.reset.jump 0x0FFF)) = some 0x0234 := by
  decide

/-- F22. -/
theorem test_decode_fault :
    faultOf (run 0x5341 State.reset) = some (some ⟨.decodeFault, 0x5341, 0x0200⟩, 0x0200) := by
  decide

/-! ## Registers and ALU (section 2.3) -/

/-- S1c. -/
theorem test_ld_kk : seen 15 (run 0x6FFF State.reset) = some (0xFF, 0xFF, 0x0202) := by
  decide

/-- A1: no flag. -/
theorem test_add_kk : seen 2 (run 0x7207 (regs [(2, 0xFB), (15, 0x77)])) = some (0x02, 0x77, 0x0202) := by
  decide

/-- A4. -/
theorem test_ld_vy : seen 1 (run 0x8120 (regs [(1, 0x11), (2, 0x22)])) = some (0x22, 0, 0x0202) := by
  decide

/-- A5: `VF` is not reset. -/
theorem test_or :
    seen 1 (run 0x8121 (regs [(1, 0x2A), (2, 0x15), (15, 0x77)])) = some (0x3F, 0x77, 0x0202) := by
  decide

/-- A6. -/
theorem test_and :
    seen 1 (run 0x8122 (regs [(1, 0xF0), (2, 0x3C), (15, 0x77)])) = some (0x30, 0x77, 0x0202) := by
  decide

/-- A7. -/
theorem test_xor :
    seen 1 (run 0x8123 (regs [(1, 0xFF), (2, 0x0F), (15, 0x77)])) = some (0xF0, 0x77, 0x0202) := by
  decide

/-- S2a, S2b. -/
theorem test_add :
    seen 1 (run 0x8124 (regs [(1, 0xC8), (2, 0x64)])) = some (0x2C, 1, 0x0202) ∧
    seen 1 (run 0x8124 (regs [(1, 0x80), (2, 0x7F)])) = some (0xFF, 0, 0x0202) := by
  decide

/-- A20, A22: the flag is written last, the operands are read first. -/
theorem test_add_vf :
    seen 15 (run 0x8F24 (regs [(15, 0xC8), (2, 0x64)])) = some (1, 1, 0x0202) ∧
    seen 1 (run 0x81F4 (regs [(1, 0xFF), (15, 0x01)])) = some (0x00, 1, 0x0202) := by
  decide

/-- S2d, S2e. -/
theorem test_sub :
    seen 1 (run 0x8125 (regs [(1, 0x03), (2, 0x0A)])) = some (0xF9, 0, 0x0202) ∧
    seen 1 (run 0x8125 (regs [(1, 0x42), (2, 0x42)])) = some (0x00, 1, 0x0202) := by
  decide

/-- A17, A23: `Vy` is not read. -/
theorem test_shr :
    seen 1 (run 0x8126 (regs [(1, 0x05), (2, 0xEE)])) = some (0x02, 1, 0x0202) ∧
    seen 15 (run 0x8F06 (regs [(15, 0x05)])) = some (1, 1, 0x0202) := by
  decide

/-- A15, A27. -/
theorem test_subn :
    seen 1 (run 0x8127 (regs [(1, 0x0A), (2, 0x03)])) = some (0xF9, 0, 0x0202) ∧
    seen 1 (run 0x81F7 (regs [(1, 0x0A), (15, 0x03)])) = some (0xF9, 0, 0x0202) := by
  decide

/-- A19c, A25. -/
theorem test_shl :
    seen 1 (run 0x812E (regs [(1, 0x81), (2, 0xEE)])) = some (0x02, 1, 0x0202) ∧
    seen 15 (run 0x8F0E (regs [(15, 0x81)])) = some (1, 1, 0x0202) := by
  decide

/-- A28 to A31, for every draw: the result is the draw masked by kk, and `PC` advances. -/
theorem test_rnd :
    exec (.rndVxKk 3 0x0F) State.reset =
      .next { State.reset with
        v := State.reset.v.set 3 (Config.draw 0 &&& 0x0F), pc := 0x0202, draws := 1 } :=
  rfl

/-! ## Index, loads and stores (section 2.4) -/

/-- M1. -/
theorem test_ld_i : (run 0xAFFF State.reset).map (fun t => (t.i, t.pc)) = some (0x0FFF, 0x0202) := by
  decide

/-- M3: the sum wraps at 4096 and `VF` is not written. -/
theorem test_add_i :
    (run 0xF21E ((regs [(2, 0x01)]).setI 0x0FFF)).map (fun t => (t.i, t.reg 15)) = some (0x0000, 0) := by
  decide

/-- M5, M9: the whole 8-bit register is used. -/
theorem test_ld_f :
    (run 0xF329 (regs [(3, 0x0A)])).map (fun t => t.i) = some 0x0032 ∧
    (run 0xF329 (regs [(3, 0xFF)])).map (fun t => t.i) = some 0x04FB := by
  decide

/-- M15: the store wraps onto the font. -/
theorem test_ld_b :
    bytesOf [0xFFE, 0xFFF, 0x000, 0x001] (run 0xF433 ((regs [(4, 0xEA)]).setI 0x0FFE)) =
      some [2, 3, 4, 0x90] := by
  decide

/-- M16. -/
theorem test_ld_imem :
    bytesOf [0x31F, 0x320, 0x321, 0x322, 0x323]
      (run 0xF255 ((regs [(0, 0x11), (1, 0x22), (2, 0x33), (3, 0x44)]).setI 0x0320)) =
      some [0, 0x11, 0x22, 0x33, 0] := by
  decide

/-- M20, with the default font. -/
theorem test_ld_vx_imem :
    (run 0xF465 (regs [(5, 0x77)])).map (fun t => (t.reg 0, t.reg 1, t.reg 4, t.reg 5, t.i)) =
      some (0xF0, 0x90, 0xF0, 0x77, 0x0000) := by
  decide

/-! ## Display (section 2.5) -/

/-- G1, G2. -/
theorem test_cls :
    drawn (run 0x00E0 (lit 3 0 (regs [(15, 0x77)]))) = some ([], 0x77, true) ∧
    drawn (run 0x00E0 State.reset) = some ([], 0, true) := by
  decide

/-- S4: nothing is clipped. -/
theorem test_drw_wraps :
    drawn (run 0xD012 (((regs [(0, 0x3F), (1, 0x1F)]).setI 0x0300).storeBytes 0x0300 [0xFF, 0xFF])) =
      some ([(0, 31), (1, 31), (2, 31), (3, 31), (4, 31), (5, 31), (6, 31), (63, 31)] ++
        [(0, 0), (1, 0), (2, 0), (3, 0), (4, 0), (5, 0), (6, 0), (63, 0)], 0, true) := by
  decide

/-- G5: one overlap is enough, and later bits do not clear it. -/
theorem test_drw_collides :
    drawn (run 0xD011 (lit 2 0 ((State.reset.setI 0x0300).storeBytes 0x0300 [0xF0]))) =
      some ([(0, 0), (1, 0), (3, 0)], 1, true) := by
  decide

/-! ## Keys and timers (section 2.6) -/

/-- K3, K2. -/
theorem test_skp :
    pcOf (run 0xE49E (press 5 (regs [(4, 0x15)]))) = some 0x0204 ∧
    pcOf (run 0xE49E (regs [(4, 0x05)])) = some 0x0202 := by
  decide

/-- K4, K5. -/
theorem test_sknp :
    pcOf (run 0xE4A1 (regs [(4, 0x05)])) = some 0x0204 ∧
    pcOf (run 0xE4A1 (press 5 (regs [(4, 0x05)]))) = some 0x0202 := by
  decide

/-- K6. -/
theorem test_ld_vx_dt : seen 3 (run 0xF307 (State.reset.setDt 0x2A)) = some (0x2A, 0, 0x0202) := by
  decide

/-- K10. -/
theorem test_key_wait_pressed :
    seen 2 (run 0xF20A (press 7 (press 3 (regs [(2, 0x77)])))) = some (0x03, 0, 0x0202) := by
  decide

/-- K8. -/
theorem test_key_wait_idle : seen 2 (run 0xF20A (regs [(2, 0x77)])) = some (0x77, 0, 0x0200) := by
  decide

/-- K13. -/
theorem test_ld_dt :
    (run 0xF015 (regs [(0, 0xFF)])).map (fun t => (t.dt, t.st)) = some (0xFF, 0) := by
  decide

/-- K14. -/
theorem test_ld_st :
    (run 0xF618 (regs [(6, 0x1E)])).map (fun t => (t.dt, t.st)) = some (0, 30) := by
  decide

/-! ## Events, faults, reset (sections 2.6 and 2.7) -/

/-- K15, K16. -/
theorem test_tick :
    (tick ((State.reset.setDt 1).setSt 3)).dt = 0 ∧ (tick ((State.reset.setDt 1).setSt 3)).st = 2 ∧
    (tick State.reset).dt = 0 := by
  decide

/-- K18. -/
theorem test_display :
    (displayView { State.reset with dirty := true }).dirty = true ∧
    (display { State.reset with dirty := true }).dirty = false := by
  decide

/-- X1, X2. -/
theorem test_empty_image :
    faultOf (nextOf (step State.reset)) = some (some ⟨.decodeFault, 0x0000, 0x0200⟩, 0x0200) ∧
    ((nextOf (step State.reset)).bind (fun t => nextOf (step t))) = nextOf (step State.reset) := by
  decide

/-- X6. -/
theorem test_load_fault :
    (load 0x0F00 (List.replicate 257 0) State.reset).fault = some ⟨.loadFault, 0, 0x0200⟩ := by
  rw [load, List.length_replicate]
  decide

/-- R172: a load that does not fit keeps the first fault. -/
theorem test_load_keeps_first_fault :
    (load 0x0F00 (List.replicate 257 0) (State.reset.raise .decodeFault 0x1234)).fault =
      some ⟨.decodeFault, 0x1234, 0x0200⟩ := by
  rw [load, List.length_replicate]
  decide

/-- R53: the bytes of the first, second and last glyph. -/
theorem test_font :
    [0, 4, 5, 6, 0x4B, 0x4F, 0x50].map State.reset.readByte =
      [0xF0, 0xF0, 0x20, 0x60, 0xF0, 0x80, 0] := by
  decide

/-- The canonical form refuses an address out of order, a repeated one, one outside memory, and an entry
equal to the background. -/
theorem test_memory_form :
    Memory.wf [(0x300, 1), (0x301, 2)] = true ∧ Memory.wf [(0x301, 2), (0x300, 1)] = false ∧
    Memory.wf [(0x300, 1), (0x300, 2)] = false ∧ Memory.wf [(0x1000, 1)] = false ∧
    Memory.wf [(0x300, 0)] = false ∧ Memory.wf [(0, 0xF0)] = false := by
  decide

/-! ## Witnesses: a state and operands that meet the hypotheses of each obligation, clause by clause -/

/-- A halted state. -/
def halted : State := { State.reset with fault := some ⟨.decodeFault, 0x0000, 0x0200⟩ }

/-- Some next state. -/
def answers (o : Host.Outcome State Fault Refusal) : Bool := (nextOf o).isSome

/-- An outcome that holds a state answers it. -/
theorem next_of_answers (o : Host.Outcome State Fault Refusal) (h : answers o = true) :
    ∃ t : State, o = .next t := by
  cases o with
  | next t => exact ⟨t, rfl⟩
  | fault r => cases h
  | refused r => cases h

theorem witness_EncodeOfDecodeIsIdentity : decodeWord 0x8EF6 = .ok (.shrVx 0xE 0xF) := by
  decide

theorem witness_IllegalWordsAreRefused :
    illegalWord 0x0FFF = true ∧ illegalWord 0x0000 = true ∧ illegalWord 0x500F = true ∧
    illegalWord 0x8FFF = true ∧ illegalWord 0x9FF1 = true ∧ illegalWord 0xE0A0 = true ∧
    illegalWord 0xFFFF = true ∧ illegalWord 0x00E0 = false ∧ illegalWord 0xFF65 = false := by
  decide

theorem witness_FetchIsBigEndianAndWraps :
    (State.reset.jump 0x0FFF).pc.toNat % 4096 = 0xFFF ∧ (State.reset.jump 0xFFFF).pc.toNat % 4096 = 0xFFF := by
  decide

theorem witness_StepRunsDecodedInstruction :
    (State.reset.withFetchWord 16 0x6005).fault = none ∧
    decodeWord (State.reset.withFetchWord 16 0x6005).fetchWord = .ok (.ldVxKk 0 5) ∧
    State.reset.fault = none ∧ decodeWord State.reset.fetchWord = .error (.unknownOpcode 0) ∧
    halted.fault = some ⟨.decodeFault, 0x0000, 0x0200⟩ := by
  decide

/-- One state for each clause: an illegal word, a full stack, an empty one, none of these at depth 15. -/
theorem witness_StepFaultsExactlyWhereTheTaxonomySays :
    let illegal := State.reset
    let full := (stacked 16 0 State.reset).withFetchWord 16 0x2ABC
    let empty := State.reset.withFetchWord 16 0x00EE
    let fine := (stacked 15 0 State.reset).withFetchWord 16 0x2ABC
    illegal.fault = none ∧ illegalWord illegal.fetchWord = true ∧
    full.fault = none ∧ full.fetchWord.toNat / 0x1000 = 2 ∧ full.sp = 16 ∧
    empty.fault = none ∧ empty.fetchWord = 0x00EE ∧ empty.sp = 0 ∧
    fine.fault = none ∧ illegalWord fine.fetchWord = false ∧
    ¬ (fine.fetchWord.toNat / 0x1000 = 2 ∧ fine.sp = 16) ∧ ¬ (fine.fetchWord = 0x00EE ∧ fine.sp = 0) := by
  decide

theorem witness_HaltedCoreKeepsItsFault : halted.fault = some ⟨.decodeFault, 0x0000, 0x0200⟩ := by
  decide

theorem witness_FaultReportShowsPointOfFailure :
    State.reset.fault = none ∧ halted.fault = some ⟨.decodeFault, 0x0000, 0x0200⟩ := by
  decide

/-- A skip writes none of the state the clauses are about; the register clauses have `JP`. -/
theorem witness_OnlyNamedInstructionsWrite :
    (∃ t : State, exec (.seVxKk 0 0) State.reset = .next t) ∧
    (Instr.seVxKk 0 0).writesMem = false ∧ (Instr.seVxKk 0 0).writesI = false ∧
    (Instr.seVxKk 0 0).usesStack = false ∧ (Instr.seVxKk 0 0).writesDisplay = false ∧
    (∀ nnn : Addr, Instr.seVxKk 0 0 ≠ .callNnn nnn) ∧ (∀ x : Reg, Instr.seVxKk 0 0 ≠ .ldDtVx x) ∧
    (∀ x : Reg, Instr.seVxKk 0 0 ≠ .ldStVx x) ∧
    (∀ (x : Reg) (kk : Byte), Instr.seVxKk 0 0 ≠ .rndVxKk x kk) := by
  refine ⟨⟨_, rfl⟩, rfl, rfl, rfl, rfl, ?_, ?_, ?_, ?_⟩ <;> intros <;> simp

theorem witness_RegistersChangeOnlyAsNamed :
    (∃ t : State, exec (.shrVx 15 15) (regs [(15, 0x04)]) = .next t) ∧
    (Instr.shrVx 15 15).definesFlag = true ∧ (0 : Reg) ∉ (Instr.shrVx 15 15).regsWritten := by
  exact ⟨⟨_, rfl⟩, rfl, by decide⟩

/-- One instruction of each class, and a step that faults. -/
theorem witness_ProgramCounterMovesByClass :
    (∃ t : State, exec .cls State.reset = .next t) ∧
    Instr.cls.isSkip = false ∧ Instr.cls.redirectsPc = false ∧
    (∃ t : State, exec (.skpVx 0) State.reset = .next t) ∧ (Instr.skpVx 0).isSkip = true ∧
    (∃ t : State, exec (.ldVxK 3) State.reset = .next t) ∧
    (∃ t : State, exec .ret State.reset = .next t ∧ t.fault ≠ State.reset.fault) := by
  exact ⟨⟨_, rfl⟩, rfl, rfl, ⟨_, rfl⟩, rfl, ⟨_, rfl⟩, ⟨_, rfl, by decide⟩⟩

/-- The two boundary depths of each clause: 0 and 15 below the limit, and 16. -/
theorem witness_CallPushesOrOverflows :
    (stacked 0 0 State.reset).sp.val < 16 ∧ (stacked 15 0 State.reset).sp.val < 16 ∧
    (stacked 16 0 State.reset).sp.val = 16 ∧ (stacked 16 0 State.reset).fault = none := by
  decide

theorem witness_ReturnPopsOrUnderflows :
    (stacked 1 0 State.reset).sp.val = 0 + 1 ∧ (stacked 16 0 State.reset).sp.val = 15 + 1 ∧
    State.reset.sp.val = 0 ∧ State.reset.fault = none := by
  decide

/-- The deepest call, and a state of the subroutine whose registers and every other slot differ. -/
theorem witness_ReturnComesBackAfterCall :
    ∃ t : State, exec (.callNnn 0xABC) (stacked 15 0 State.reset) = .next t ∧
      let u := (stacked 16 0x0999 (regs [(0, 1)]))
      let v := { u with stack := u.stack.set 15 t.stack[15] }
      (stacked 15 0 State.reset).sp.val < 16 ∧ v.sp = t.sp ∧ v.stack[15] = t.stack[15] ∧
      v.stack[14] ≠ t.stack[14] := by
  exact ⟨_, rfl, by decide, by decide, by decide, by decide⟩

/-- The subroutine that calls: a call at depth 1 and its return leave a stale slot above the first call's. -/
theorem witness_ReturnComesBackAfterCall_nested :
    let s := State.reset
    let called := run 0x2300 s
    let back := (called.bind (run 0x2400)).bind (run 0x00EE)
    back.map (fun u => (u.sp, u.stack[0])) = called.map (fun t => (t.sp, t.stack[0])) ∧
    back.map (fun u => u.stack[1]) ≠ called.map (fun t => t.stack[1]) := by
  decide

theorem witness_RegisterSkipsCompareRegisters : 0 < 1 ∧ 1 < 16 ∧ 0 < 15 ∧ 15 < 16 := by
  decide

/-- `x` ≠ 15, the hypothesis on the result of a flag-writing instruction. -/
theorem witness_AddSubtractAndShiftResults : (0 : Reg) ≠ 15 ∧ (14 : Reg) ≠ 15 := by
  decide

/-- A register above 15 selects key 5; 0xFF selects key 15. -/
theorem witness_KeySkipsTestLowNibble :
    (5 : Key).val = ((regs [(4, 0x15)]).reg 4).toNat % 16 ∧
    (15 : Key).val = ((regs [(4, 0xFF)]).reg 4).toNat % 16 := by
  decide

theorem witness_GlyphAddressIsFiveTimesRegister : ((regs [(3, 0x0F)]).reg 3).toNat < 16 := by
  decide

theorem witness_DecimalDigitsAreStored : State.reset.mem.wf = true := by
  decide

/-- M22: a store of `V0` and `V1` over the bytes at `PC + 2`. -/
theorem witness_RegistersAreStored :
    let s := State.reset.setI 0x0202
    s.mem.wf = true ∧ (0 : Reg) ≤ 1 ∧ (1 : Reg).val = (0 : Reg).val + 1 ∧ (1 : Reg) ≤ 1 ∧
    (s.i.toNat + (0 : Reg).val) % 4096 = (s.pc.toNat + 2) % 4096 := by
  decide

theorem witness_LoadAfterStoreRestoresRegisters :
    ∃ t : State, State.reset.mem.wf = true ∧ exec (.ldImemVx 15) State.reset = .next t := by
  exact ⟨_, by decide, rfl⟩

/-- A draw at (64, 32), which wraps to the corner: (0, 0) is covered and set, and (63, 31) is not covered. -/
theorem witness_DrawInvertsCoveredPixels :
    let s := lit 0 0 ((State.reset.setI 0x0300).storeBytes 0x0300 [0x80])
    spriteCovers s 64 32 1 0 0 ∧ s.fb.pixel 0 0 = true ∧ ¬ spriteCovers s 64 32 1 63 31 := by
  refine ⟨⟨0, by decide, 0, by decide, by decide, by decide, by decide⟩, by decide, ?_⟩
  rintro ⟨r, hr, c, hc, -, hx, hy⟩
  omega

/-- A draw of no rows covers nothing, so no covered pixel is set. -/
theorem witness_DrawInvertsCoveredPixels_none :
    ¬ ∃ px py : Nat, spriteCovers State.reset 0 0 0 px py ∧ State.reset.fb.pixel px py = true := by
  rintro ⟨px, py, ⟨r, hr, -⟩, -⟩
  exact absurd hr (Nat.not_lt_zero r)

theorem witness_DrawingTwiceRestoresTheDisplay :
    ∃ t : State, (0 : Reg) ≠ 15 ∧ (14 : Reg) ≠ 15 ∧ exec (.drwVxVyN 0 14 5) State.reset = .next t := by
  exact ⟨_, by decide, by decide, rfl⟩

/-- Keys 3 and 7 pressed: the lowest is 3; and with none pressed, none is. -/
theorem witness_KeyWaitTakesLowestPressedKey :
    let s := press 7 (press 3 State.reset)
    s.keyDown 3 = true ∧ (∀ j : Key, j < 3 → s.keyDown j = false) ∧
    (∀ k : Key, State.reset.keyDown k = false) := by
  decide

theorem witness_WaitingLastsUntilKeysChange :
    waitingAt 0x0200 2 (State.reset.withFetchWord 16 0xF20A) ∧
    (∀ k : KeyLatch, Event.setKeys k ∉ [Event.step, Event.tick, Event.display]) := by
  refine ⟨⟨rfl, rfl, by decide, by decide⟩, fun k => by simp⟩

theorem witness_ParkedCoreStaysParked : parkedAt 0x200 (State.reset.withFetchWord 16 0x1200) := by
  exact ⟨rfl, by decide, by decide⟩

theorem witness_TickDecrementsNonzeroTimers :
    State.reset.fault = none ∧ halted.fault = some ⟨.decodeFault, 0x0000, 0x0200⟩ := by
  decide

theorem witness_TimersDecayToZeroAndStay : (State.reset.setDt 5).fault = none := by
  decide

/-- X5 and X6: the last length that fits at 0xF00 and the first that does not; an empty load at 0x1000 fits;
and a halted core. -/
theorem witness_LoadWritesWholeOrFaults :
    State.reset.mem.wf = true ∧ State.reset.fault = none ∧ halted.mem.wf = true ∧
    halted.fault = some ⟨.decodeFault, 0x0000, 0x0200⟩ ∧
    (0x0F00 : Word).toNat + (List.replicate 256 (0 : Byte)).length ≤ 4096 ∧
    4096 < (0x0F00 : Word).toNat + (List.replicate 257 (0 : Byte)).length ∧
    (0x1000 : Word).toNat + ([] : List Byte).length ≤ 4096 := by
  refine ⟨rfl, rfl, rfl, rfl, ?_, ?_, by decide⟩ <;> rw [List.length_replicate] <;> decide

/-- X7 and X8. -/
theorem witness_ResetInstallsFontAndImage :
    (List.replicate 3584 (0 : Byte)).length ≤ 3584 ∧ 3584 < (List.replicate 3585 (0 : Byte)).length := by
  rw [List.length_replicate, List.length_replicate]
  decide

/-- The reset state meets the invariant and steps, into a fault; so does a state whose step completes. -/
theorem witness_StepKeepsTheInvariant :
    (∃ t : State, Inv State.reset ∧ step State.reset = .next t) ∧
    (∃ t : State, Inv (State.reset.withFetchWord 16 0x6005) ∧
      step (State.reset.withFetchWord 16 0x6005) = .next t) := by
  refine ⟨?_, ?_⟩
  · obtain ⟨t, ht⟩ := next_of_answers (step State.reset) (by decide)
    exact ⟨t, ⟨by decide, by decide, fun f h => by cases h⟩, ht⟩
  · obtain ⟨t, ht⟩ := next_of_answers (step (State.reset.withFetchWord 16 0x6005)) (by decide)
    exact ⟨t, ⟨by decide, by decide, fun f h => by cases h⟩, ht⟩

theorem witness_ScheduleKeepsTheInvariant : Inv State.reset :=
  ⟨by decide, by decide, fun f h => by cases h⟩

end Sys2Proof.Tests
end

section
/-! The opcode map read as mask and match (30_encoding.md R75), and the fetched word (R70). A row fixes some
fields of a word: its top nibble, and for the formats XY and X its low nibble or low byte. The decoder
tests those same fields, so both directions of O3 go through the `_iff` lemmas below. -/

namespace Sys2Proof

/-! ### A row's mask and match, as fields of the word -/

section
variable (w m : Word)

theorem and_F000_iff (hm : m &&& 0xF000#16 = m) : w &&& 0xF000#16 = m ↔ topNibble w = topNibble m := by
  have hm' := congrArg BitVec.toNat hm
  rw [toNat_and_F000] at hm'
  rw [← BitVec.toNat_inj, ← BitVec.toNat_inj, toNat_and_F000, toNat_topNibble, toNat_topNibble]
  omega

theorem and_F00F_iff (hm : m &&& 0xF00F#16 = m) :
    w &&& 0xF00F#16 = m ↔ topNibble w = topNibble m ∧ lowNibble w = lowNibble m := by
  have hm' := congrArg BitVec.toNat hm
  rw [toNat_and_F00F] at hm'
  simp only [← BitVec.toNat_inj, toNat_and_F00F, toNat_topNibble, toNat_lowNibble]
  omega

theorem and_F0FF_iff (hm : m &&& 0xF0FF#16 = m) :
    w &&& 0xF0FF#16 = m ↔ topNibble w = topNibble m ∧ fieldKk w = fieldKk m := by
  have hm' := congrArg BitVec.toNat hm
  rw [toNat_and_F0FF] at hm'
  simp only [← BitVec.toNat_inj, toNat_and_F0FF, toNat_topNibble, toNat_fieldKk]
  omega

end

/-! ### What decodes lies in its row -/

section
variable {w : Word} {j : Instr}

theorem and_maskOf_of_decodeFamily0 (h : decodeFamily0 w = .ok j) : w &&& maskOf j = matchOf j := by
  unfold decodeFamily0 at h
  split_ifs at h with h0 h1 <;> cases h
  · exact (and_FFFF w).trans h0
  · exact (and_FFFF w).trans h1

theorem and_maskOf_of_decodeFamily5 (ht : topNibble w = 0x5#4) (h : decodeFamily5 w = .ok j) :
    w &&& maskOf j = matchOf j := by
  unfold decodeFamily5 at h
  split_ifs at h with hl
  cases h
  simp only [maskOf, matchOf]
  exact (and_F00F_iff w _ rfl).2 ⟨ht, hl⟩

theorem and_maskOf_of_decodeFamily8 (ht : topNibble w = 0x8#4) (h : decodeFamily8 w = .ok j) :
    w &&& maskOf j = matchOf j := by
  unfold decodeFamily8 at h
  split_ifs at h <;> cases h <;> simp only [maskOf, matchOf]
  all_goals exact (and_F00F_iff w _ rfl).2 ⟨ht, by assumption⟩

theorem and_maskOf_of_decodeFamily9 (ht : topNibble w = 0x9#4) (h : decodeFamily9 w = .ok j) :
    w &&& maskOf j = matchOf j := by
  unfold decodeFamily9 at h
  split_ifs at h with hl
  cases h
  simp only [maskOf, matchOf]
  exact (and_F00F_iff w _ rfl).2 ⟨ht, hl⟩

theorem and_maskOf_of_decodeFamilyE (ht : topNibble w = 0xE#4) (h : decodeFamilyE w = .ok j) :
    w &&& maskOf j = matchOf j := by
  unfold decodeFamilyE at h
  split_ifs at h with h0 h1 <;> cases h <;> simp only [maskOf, matchOf]
  · exact (and_F0FF_iff w _ rfl).2 ⟨ht, h0⟩
  · exact (and_F0FF_iff w _ rfl).2 ⟨ht, h1⟩

theorem and_maskOf_of_decodeFamilyF (ht : topNibble w = 0xF#4) (h : decodeFamilyF w = .ok j) :
    w &&& maskOf j = matchOf j := by
  unfold decodeFamilyF at h
  split_ifs at h <;> cases h <;> simp only [maskOf, matchOf]
  all_goals exact (and_F0FF_iff w _ rfl).2 ⟨ht, by assumption⟩

/-- One case per arm of the decode procedure (R74): an arm for a whole top nibble fixes that nibble and no
more, and every other arm is its family's lemma. -/
theorem and_maskOf_of_decodeWord (h : decodeWord w = .ok j) : w &&& maskOf j = matchOf j := by
  unfold decodeWord at h
  split at h
  case h_1 => exact and_maskOf_of_decodeFamily0 h
  case h_6 ht => exact and_maskOf_of_decodeFamily5 (BitVec.eq_of_toNat_eq ht) h
  case h_9 ht => exact and_maskOf_of_decodeFamily8 (BitVec.eq_of_toNat_eq ht) h
  case h_10 ht => exact and_maskOf_of_decodeFamily9 (BitVec.eq_of_toNat_eq ht) h
  case h_15 ht => exact and_maskOf_of_decodeFamilyE (BitVec.eq_of_toNat_eq ht) h
  case h_16 =>
    have hlt := (topNibble w).isLt
    simp only [imp_false] at *
    have ht : (topNibble w).toNat = 0xF := by omega
    exact and_maskOf_of_decodeFamilyF (BitVec.eq_of_toNat_eq ht) h
  all_goals
    rename_i ht
    cases h
    simp only [maskOf, matchOf]
    exact (and_F000_iff w _ rfl).2 (BitVec.eq_of_toNat_eq ht)

end

/-! ### What lies in a row decodes to that row -/

/-- One case per mask of R75: the fields that the row fixes decide every test of the decoder. -/
theorem decodeWord_of_and_maskOf (w : Word) (i : Instr) (h : w &&& maskOf i = matchOf i) :
    ∃ j : Instr, decodeWord w = .ok j ∧ sameRow i j := by
  cases i with
  | cls | ret =>
    obtain rfl := (and_FFFF w).symm.trans h
    exact ⟨_, rfl, rfl, rfl⟩
  | jpNnn | callNnn | seVxKk | sneVxKk | ldVxKk | addVxKk | ldINnn | jpV0Nnn | rndVxKk | drwVxVyN =>
    simp only [maskOf, matchOf] at h
    have ht := (and_F000_iff w _ rfl).1 h
    rw [decodeWord, ht]
    exact ⟨_, rfl, rfl, rfl⟩
  | seVxVy | ldVxVy | orVxVy | andVxVy | xorVxVy | addVxVy | subVxVy | shrVx | subnVxVy | shlVx
  | sneVxVy =>
    simp only [maskOf, matchOf] at h
    obtain ⟨ht, hl⟩ := (and_F00F_iff w _ rfl).1 h
    simp only [decodeWord, decodeFamily5, decodeFamily8, decodeFamily9, ht, hl]
    exact ⟨_, rfl, rfl, rfl⟩
  | skpVx | sknpVx | ldVxDt | ldVxK | ldDtVx | ldStVx | addIVx | ldFVx | ldBVx | ldImemVx | ldVxImem =>
    simp only [maskOf, matchOf] at h
    obtain ⟨ht, hk⟩ := (and_F0FF_iff w _ rfl).1 h
    simp only [decodeWord, decodeFamilyE, decodeFamilyF, ht, hk]
    exact ⟨_, rfl, rfl, rfl⟩

theorem row_mem_opcodeRows (i : Instr) : (maskOf i, matchOf i) ∈ opcodeRows := by
  cases i <;> simp [maskOf, matchOf, opcodeRows]

/-- Settles O3: the decoder's tests are the rows' fixed fields, the rows are R75's, and neither shift
reads `y`. -/
theorem decoderAgreesWithOpcodeMap : Obligations.DecoderAgreesWithOpcodeMap := by
  refine ⟨fun w i => ⟨?_, decodeWord_of_and_maskOf w i⟩, row_mem_opcodeRows, fun x y y' s => ⟨rfl, rfl⟩⟩
  rintro ⟨j, hj, hmask, hmatch⟩
  rw [hmask, hmatch]
  exact and_maskOf_of_decodeWord hj

/-! ### The fetched word (R70) -/

namespace Machine

/-- An address is its value modulo 4096 (R51). -/
theorem State.readByte_mod (s : State) (a : Nat) : s.readByte (a % 4096) = s.readByte a :=
  Memory.read_mod s.mem a

theorem State.toNat_fetchWord (s : State) :
    s.fetchWord.toNat =
      (s.readByte (s.pc.toNat % 4096)).toNat * 256 + (s.readByte ((s.pc.toNat + 1) % 4096)).toNat := by
  rw [State.readByte_mod, State.readByte_mod]
  exact toNat_wordOfBytes _ _

/-- Settles O6: at `PC mod 4096` = 0xFFF the second address, reduced by itself, is 0. -/
theorem fetchIsBigEndianAndWraps : Obligations.FetchIsBigEndianAndWraps := by
  intro s
  refine ⟨s.toNat_fetchWord, fun hpc => ?_⟩
  have hnext : (s.pc.toNat + 1) % 4096 = 0x000 := by omega
  rw [s.toNat_fetchWord, hpc, hnext]

end Machine

end Sys2Proof
end

section
/-! Control transfer (40_control_flow.md R102, R104 to R107). Every word of these statements is the encoding of
its instruction, which decodes to it; a jump and a skip are one update of `PC` each, so what they set and what
they leave is said once, of `State.jump` and `State.skipIf`. -/

namespace Sys2Proof

/-! ### An instruction's word decodes to it -/

/-- One case per instruction: the fields of the encoded word decide every test of the decoder (R74). -/
theorem decodeWord_encode (i : Instr) : decodeWord (encode i) = .ok i := by
  cases i with
  | cls | ret => rfl
  | jpNnn | callNnn | ldINnn | jpV0Nnn => simp [encode, decodeWord]
  | seVxKk | sneVxKk | ldVxKk | addVxKk | rndVxKk | drwVxVyN => simp [encode, decodeWord]
  | seVxVy => simp [encode, decodeWord, decodeFamily5]
  | sneVxVy => simp [encode, decodeWord, decodeFamily9]
  | ldVxVy | orVxVy | andVxVy | xorVxVy | addVxVy | subVxVy | shrVx | subnVxVy | shlVx =>
    simp [encode, decodeWord, decodeFamily8]
  | skpVx | sknpVx => simp [encode, decodeWord, decodeFamilyE]
  | ldVxDt | ldVxK | ldDtVx | ldStVx | addIVx | ldFVx | ldBVx | ldImemVx | ldVxImem =>
    simp [encode, decodeWord, decodeFamilyF]

theorem decodeWord_of_encode_eq {i : Instr} {w : Word} (h : encode i = w) : decodeWord w = .ok i :=
  h ▸ decodeWord_encode i

/-! ### The illegal words of the families 5 and 9 -/

theorem patternXyn_eq_format (t : Nibble) (x y : Reg) {n : Nat} (hn : n < 16) :
    patternXyn t.toNat x y n = formatXyn t x y (BitVec.ofNat 4 n) := by
  rw [formatXyn_eq_pattern, BitVec.toNat_ofNat, Nat.mod_eq_of_lt hn]

/-- Both families take low nibble 0 alone (R76, R77). -/
theorem decodeWord_of_lowNibble_ne_zero {w : Word} (ht : topNibble w = 0x5#4 ∨ topNibble w = 0x9#4)
    (hl : lowNibble w ≠ 0x0#4) : decodeWord w = .error (.unknownOpcode w) := by
  obtain ht | ht := ht
  · simp [decodeWord, ht, decodeFamily5, hl]
  · simp [decodeWord, ht, decodeFamily9, hl]

theorem decodeWord_patternXyn_of_pos {t : Nibble} (ht : t = 0x5#4 ∨ t = 0x9#4) (x y : Reg) {n : Nat}
    (hpos : 0 < n) (hlt : n < 16) :
    decodeWord (patternXyn t.toNat x y n) = .error (.unknownOpcode (patternXyn t.toNat x y n)) := by
  have hlow : BitVec.ofNat 4 n ≠ 0x0#4 := by
    rw [ne_eq, ← BitVec.toNat_inj, BitVec.toNat_ofNat, BitVec.toNat_ofNat]
    omega
  rw [patternXyn_eq_format t x y hlt]
  exact decodeWord_of_lowNibble_ne_zero (by rwa [topNibble_formatXyn]) (by rwa [lowNibble_formatXyn])

namespace Machine

/-! ### What a jump and a skip set and leave -/

section
variable (s : State)

theorem onlyPc_jump (w : Word) : onlyPc s (s.jump w) := ⟨rfl, s.readByte_jump w⟩

theorem State.jump_self {w : Word} (h : s.pc = w) : s.jump w = s := by
  subst h
  rfl

theorem onlyPc_skipIf (c : Bool) : onlyPc s (s.skipIf c) := ⟨rfl, s.readByte_skipIf c⟩

theorem pcAdvancedBy_skipIf (c : Bool) : pcAdvancedBy (if c then 4 else 2) s (s.skipIf c) := by
  cases c <;> exact BitVec.toNat_add s.pc _

/-- A skip where `p` holds (R25 (b)). -/
theorem skipIf_of_condition (p : Prop) [Decidable p] :
    pcAdvancedBy (if p then 4 else 2) s (s.skipIf (decide p)) ∧ onlyPc s (s.skipIf (decide p)) :=
  ⟨by simpa using pcAdvancedBy_skipIf s (decide p), onlyPc_skipIf s _⟩

/-- The complementary skip: where `p` fails (R105, R107). -/
theorem skipIf_of_negation (p : Prop) [Decidable p] :
    pcAdvancedBy (if p then 2 else 4) s (s.skipIf (decide ¬p)) ∧ onlyPc s (s.skipIf (decide ¬p)) := by
  simpa only [ite_not] using skipIf_of_condition s ¬p

end

/-- Settles O20: the target is zero-extended, and a jump to its own address is the identity. -/
theorem jumpSetsProgramCounter : Obligations.JumpSetsProgramCounter := by
  refine fun nnn s => ⟨decodeWord_of_encode_eq (formatNnn_eq_pattern 0x1#4 nnn),
    s.jump (addrOperand nnn), rfl, toNat_addrOperand nnn, onlyPc_jump s _, fun hself => ?_⟩
  have hpc : s.pc = addrOperand nnn := BitVec.eq_of_toNat_eq (hself.trans (toNat_addrOperand nnn).symm)
  exact s.jump_self hpc

/-- Settles O25: the two are one skip, on a condition and on its negation. -/
theorem constantSkipsCompareRegister : Obligations.ConstantSkipsCompareRegister := fun x kk s =>
  ⟨decodeWord_of_encode_eq (formatXkk_eq_pattern 0x3#4 x kk),
    decodeWord_of_encode_eq (formatXkk_eq_pattern 0x4#4 x kk),
    ⟨_, rfl, skipIf_of_condition s (s.reg x = kk)⟩,
    ⟨_, rfl, skipIf_of_negation s (s.reg x = kk)⟩⟩

/-- Settles O26: the same skips on two registers, and their families hold no word but those of low nibble 0. -/
theorem registerSkipsCompareRegisters : Obligations.RegisterSkipsCompareRegisters := fun x y s =>
  ⟨decodeWord_of_encode_eq (formatXyn_eq_pattern 0x5#4 x y 0x0#4),
    decodeWord_of_encode_eq (formatXyn_eq_pattern 0x9#4 x y 0x0#4),
    fun _ hpos hlt => ⟨decodeWord_patternXyn_of_pos (t := 0x5#4) (.inl rfl) x y hpos hlt,
      decodeWord_patternXyn_of_pos (t := 0x9#4) (.inr rfl) x y hpos hlt⟩,
    ⟨_, rfl, skipIf_of_condition s (s.reg x = s.reg y)⟩,
    ⟨_, rfl, skipIf_of_negation s (s.reg x = s.reg y)⟩⟩

end Machine

end Sys2Proof
end

section
/-! Loads, immediate addition and logic (41_alu.md R122 to R127). All six answer one update: a byte to `Vx`,
then "+2". What that update leaves is said once, of `(s.setReg x b).advance`; the instructions differ
in the byte alone. -/

namespace Sys2Proof.Machine

section
variable (s : State) (x : Reg) (b : Byte)

theorem pcAdvancedBy_advance_setReg : pcAdvancedBy 2 s (s.setReg x b).advance :=
  BitVec.toNat_add s.pc 2

/-- `VF` is among the registers kept, unless it is `Vx`. -/
theorem onlyRegs_advance_setReg : onlyRegs [x] s (s.setReg x b).advance :=
  ⟨rfl, fun r hr => s.reg_setReg_of_ne x r b (List.ne_of_not_mem_cons hr), fun _ => rfl⟩

theorem advance_setReg_frame :
    pcAdvancedBy 2 s (s.setReg x b).advance ∧ onlyRegs [x] s (s.setReg x b).advance :=
  ⟨pcAdvancedBy_advance_setReg s x b, onlyRegs_advance_setReg s x b⟩

end

/-- Settles O15: the byte is the constant, the sum modulo 256, or the other register. -/
theorem loadAndAddImmediateResults : Obligations.LoadAndAddImmediateResults := by
  refine fun x y kk s => ⟨decodeWord_of_encode_eq (formatXkk_eq_pattern 0x6#4 x kk),
    decodeWord_of_encode_eq (formatXkk_eq_pattern 0x7#4 x kk),
    decodeWord_of_encode_eq (formatXyn_eq_pattern 0x8#4 x y 0x0#4),
    ⟨_, rfl, s.reg_setReg_self x kk, advance_setReg_frame s x _⟩,
    ⟨_, rfl, ?_, advance_setReg_frame s x _⟩,
    ⟨_, rfl, s.reg_setReg_self x (s.reg y), advance_setReg_frame s x _⟩⟩
  rw [State.reg_advance, State.reg_setReg_self]
  exact BitVec.toNat_add (s.reg x) kk

/-- Settles O16: the byte is the bitwise operation of the two registers, so each bit is that of the bits. -/
theorem logicResultsLeaveFlagAlone : Obligations.LogicResultsLeaveFlagAlone := by
  refine fun x y s => ⟨decodeWord_of_encode_eq (formatXyn_eq_pattern 0x8#4 x y 0x1#4),
    decodeWord_of_encode_eq (formatXyn_eq_pattern 0x8#4 x y 0x2#4),
    decodeWord_of_encode_eq (formatXyn_eq_pattern 0x8#4 x y 0x3#4),
    ⟨_, rfl, fun k _ => ?or, advance_setReg_frame s x _⟩,
    ⟨_, rfl, fun k _ => ?and, advance_setReg_frame s x _⟩,
    ⟨_, rfl, fun k _ => ?xor, advance_setReg_frame s x _⟩⟩
  case or => rw [State.reg_advance, State.reg_setReg_self, BitVec.getLsbD_or]
  case and => rw [State.reg_advance, State.reg_setReg_self, BitVec.getLsbD_and]
  case xor => rw [State.reg_advance, State.reg_setReg_self, BitVec.getLsbD_xor]

end Sys2Proof.Machine
end

section
/-! The index register and the stores (42_index_memory.md R141, R142, R144, R145). The two index instructions
answer one update, a value to `I`, and the two stores another, a list of bytes from `I` on; each update's frame is
said once, and the instructions differ in the value or the list alone. -/

namespace Sys2Proof.Machine

section
variable (s : State)

theorem advance_setI_frame (w : Word) :
    pcAdvancedBy 2 s (s.setI w).advance ∧ onlyIndex s (s.setI w).advance :=
  ⟨BitVec.toNat_add s.pc 2, rfl, fun _ => rfl⟩

variable (hm : s.mem.wf = true) (a : Nat) (l : List Byte)
include hm

theorem readByte_advance_storeBytes_inside (hlen : l.length ≤ 4096) {k : Nat} (hk : k < l.length) :
    (s.storeBytes a l).advance.readByte ((a + k) % 4096) = l[k] := by
  rw [State.readByte_mod, State.readByte_advance, State.readByte_storeBytes]
  exact s.mem.read_writeBytes_inside a k l hm hlen hk

theorem advance_storeBytes_frame :
    pcAdvancedBy 2 s (s.storeBytes a l).advance ∧ onlyBytes a l.length s (s.storeBytes a l).advance :=
  ⟨BitVec.toNat_add s.pc 2, rfl, fun b => s.mem.read_writeBytes_outside a b l hm⟩

end

/-- Settles O28: the sum is reduced modulo 4096 before it reaches `I`. -/
theorem indexLoadAndMaskedAdd : Obligations.IndexLoadAndMaskedAdd := fun nnn x s =>
  ⟨decodeWord_of_encode_eq (formatNnn_eq_pattern 0xA#4 nnn),
    decodeWord_of_encode_eq (formatXkk_eq_pattern 0xF#4 x 0x1E#8),
    ⟨_, rfl, toNat_addrOperand nnn, advance_setI_frame s _⟩,
    ⟨_, rfl, toNat_maskedIndexSum s.i (s.reg x), advance_setI_frame s _⟩⟩

/-- Settles O30: the three digits are the list stored. -/
theorem decimalDigitsAreStored : Obligations.DecimalDigitsAreStored := by
  intro x s hm
  have digit (k : Nat) (hk : k < 3) :
      ((s.storeBytes s.i.toNat (bcdDigits (s.reg x))).advance.readByte ((s.i.toNat + k) % 4096)).toNat =
        [(s.reg x).toNat / 100, (s.reg x).toNat / 10 % 10, (s.reg x).toNat % 10][k] := by
    rw [readByte_advance_storeBytes_inside s hm _ (bcdDigits (s.reg x)) (by simp [bcdDigits]) hk]
    simp only [← toNat_bcdDigits]
    exact (List.getElem_map BitVec.toNat).symm
  exact ⟨decodeWord_of_encode_eq (formatXkk_eq_pattern 0xF#4 x 0x33#8), _, rfl,
    digit 0 (by decide), digit 1 (by decide), digit 2 (by decide),
    advance_storeBytes_frame s hm s.i.toNat (bcdDigits (s.reg x))⟩

/-! ### Registers stored -/

theorem length_map_regsUpTo (f : Reg → Byte) (x : Reg) : ((regsUpTo x).map f).length = x.val + 1 := by
  rw [List.length_map, length_regsUpTo]

theorem regsUpTo_getElem (x r : Reg) (h : r.val < (regsUpTo x).length) : (regsUpTo x)[r.val] = r := by
  have hr : r.val ≤ x.val := by rw [length_regsUpTo] at h; omega
  have hat := regsUpTo_getElem? x r.val
  rw [dif_pos hr, List.getElem?_eq_getElem h] at hat
  exact Option.some.inj hat

/-- Register r is at place r of the list stored (R145). -/
theorem readByte_advance_storeRegs (s : State) (hm : s.mem.wf = true) (a : Nat) {x r : Reg}
    (hr : r ≤ x) :
    (s.storeBytes a ((regsUpTo x).map s.reg)).advance.readByte ((a + r.val) % 4096) = s.reg r := by
  have hlen := length_map_regsUpTo s.reg x
  rw [Fin.le_def] at hr
  rw [readByte_advance_storeBytes_inside s hm a _ (by omega) (k := r.val) (by omega), List.getElem_map,
    regsUpTo_getElem]

/-- The word fetched is the two bytes from any address that agrees with `PC` modulo 4096 (R70). -/
theorem State.toNat_fetchWord_at {s : State} {a : Nat} {hi lo : Byte}
    (hpc : s.pc.toNat % 4096 = a % 4096) (hhi : s.readByte (a % 4096) = hi)
    (hlo : s.readByte ((a + 1) % 4096) = lo) :
    s.fetchWord.toNat = hi.toNat * 256 + lo.toNat := by
  rw [State.toNat_fetchWord, Nat.add_mod, hpc, ← Nat.add_mod, hhi, hlo]

/-- Settles O31: where `I + r` is `PC + 2`, the next word fetched is `Vr` and the register after it. -/
theorem registersAreStored : Obligations.RegistersAreStored := by
  intro x s hm
  have stored {r : Reg} (hr : r ≤ x) := readByte_advance_storeRegs s hm s.i.toNat hr
  obtain ⟨hpc, hbytes⟩ := advance_storeBytes_frame s hm (s.dataAddr 0) ((regsUpTo x).map s.reg)
  rw [length_map_regsUpTo] at hbytes
  refine ⟨decodeWord_of_encode_eq (formatXkk_eq_pattern 0xF#4 x 0x55#8), _, rfl, fun r => stored,
    fun r q hq hqx haddr => State.toNat_fetchWord_at (a := s.i.toNat + r.val) ?_ (stored ?_) ?_,
    hpc, hbytes⟩
  · unfold pcAdvancedBy at hpc
    omega
  · rw [Fin.le_def] at hqx ⊢
    omega
  · rw [Nat.add_assoc, ← hq]
    exact stored hqx

end Sys2Proof.Machine
end

section
/-! The two host events that act on a halted core as on a running one (60_exceptions.md R172, R185, R187): each
is one field of the state overwritten. -/

namespace Sys2Proof.Machine

section
variable (s : State)

/-! ### set_keys -/

@[simp] theorem State.keyDown_setKeys (k : KeyLatch) (j : Key) : (setKeys k s).keyDown j = k[j.val] := rfl

theorem setKeys_frame (k : KeyLatch) : setKeys k s = { s with key := (setKeys k s).key } := rfl

/-! ### display -/

@[simp] theorem displayView_pixels : (displayView s).pixels = s.fb := rfl
@[simp] theorem displayView_dirty : (displayView s).dirty = s.dirty := rfl
@[simp] theorem display_dirty : (display s).dirty = false := rfl

theorem display_frame : display s = { s with dirty := (display s).dirty } := rfl

end

/-- Settles O43: the view is of the state before `display` clears the flag, so its pixels are `FB` itself. -/
theorem hostEventsTouchOnlyTheirState : Obligations.HostEventsTouchOnlyTheirState := fun k s =>
  ⟨s.keyDown_setKeys k, setKeys_frame s k,
    fun px py _ _ => congrArg (Framebuffer.pixel · px py) (displayView_pixels s),
    displayView_dirty s, display_dirty s, display_frame s⟩

end Sys2Proof.Machine
end

section
/-! The decoder and the encoder are inverse to each other, and what the decoder refuses is R76's table
(30_encoding.md sections 2 to 5). Both follow from `RightOutcome`, what the decoder answers to a word, proved family
by family along the decoder's own tests: it gives an instruction whose word is that word, which is then not in the
table, or refuses it, and then it is. -/

namespace Sys2Proof

/-- Settles O1: the fields of the encoded word decide every test of the decoder. -/
theorem decodeOfEncodeIsIdentity : Obligations.DecodeOfEncodeIsIdentity := decodeWord_encode

/-! ### A word is the format of its own fields -/

section
variable {w : Word} {t : Nibble}

theorem formatNnn_of_fields (ht : topNibble w = t) : formatNnn t (fieldNnn w) = w := by
  subst ht
  apply BitVec.eq_of_toNat_eq
  rw [toNat_formatNnn, toNat_topNibble, toNat_fieldNnn]
  omega

theorem formatXkk_of_fields {kk : Byte} (ht : topNibble w = t) (hk : fieldKk w = kk) :
    formatXkk t (fieldX w) kk = w := by
  subst ht hk
  apply BitVec.eq_of_toNat_eq
  rw [toNat_formatXkk, toNat_topNibble, val_fieldX, toNat_fieldKk]
  omega

theorem formatXyn_of_fields {l : Nibble} (ht : topNibble w = t) (hl : lowNibble w = l) :
    formatXyn t (fieldX w) (fieldY w) l = w := by
  subst ht hl
  exact (eq_formatXyn w).symm

/-- The last arm of the decode procedure is the one value of the top nibble left (R74). -/
theorem topNibble_eq_F (h : 15 ≤ (topNibble w).toNat) : topNibble w = 0xF#4 :=
  BitVec.eq_of_toNat_eq (le_antisymm (Nat.le_of_lt_succ (topNibble w).isLt) h)

end

/-! ### The table's entry of each family (R76)

Each is a test of the field that the family's decoder tests. -/

section
variable (w : Word)

theorem illegalWord_of_top0 (ht : topNibble w = 0x0#4) :
    illegalWord w = (w != 0x00E0#16 && w != 0x00EE#16) := by
  simp [illegalWord, ← toNat_topNibble, ht, bne, ← BitVec.toNat_inj, beq_eq_decide]

theorem illegalWord_of_top5_or_top9 (ht : topNibble w = 0x5#4 ∨ topNibble w = 0x9#4) :
    illegalWord w = (lowNibble w != 0x0#4) := by
  obtain ht | ht := ht
  all_goals
    simp [illegalWord, ← toNat_topNibble, ht, ← toNat_lowNibble, bne, ← BitVec.toNat_inj, beq_eq_decide]

theorem illegalWord_of_top8 (ht : topNibble w = 0x8#4) :
    illegalWord w = [0x8, 0x9, 0xA, 0xB, 0xC, 0xD, 0xF].contains (lowNibble w).toNat := by
  simp [illegalWord, ← toNat_topNibble, ht, ← toNat_lowNibble]

theorem illegalWord_of_topE (ht : topNibble w = 0xE#4) :
    illegalWord w = !([0x9E, 0xA1].contains (fieldKk w).toNat) := by
  simp [illegalWord, ← toNat_topNibble, ht, ← toNat_fieldKk]

theorem illegalWord_of_topF (ht : topNibble w = 0xF#4) :
    illegalWord w =
      !([0x07, 0x0A, 0x15, 0x18, 0x1E, 0x29, 0x33, 0x55, 0x65].contains (fieldKk w).toNat) := by
  simp [illegalWord, ← toNat_topNibble, ht, ← toNat_fieldKk]

/-- No word of a family without sub-opcodes is illegal. -/
theorem illegalWord_of_whole_family
    (ht : (topNibble w).toNat ∈ [1, 2, 3, 4, 6, 7, 0xA, 0xB, 0xC, 0xD]) : illegalWord w = false := by
  have none : ∀ t ∈ [1, 2, 3, 4, 6, 7, 0xA, 0xB, 0xC, 0xD],
      t ≠ 0x0 ∧ t ≠ 0x5 ∧ t ≠ 0x8 ∧ t ≠ 0x9 ∧ t ≠ 0xE ∧ t ≠ 0xF := by decide
  simp [illegalWord, ← toNat_topNibble, none _ ht]

end

/-! ### What the decoder answers -/

/-- The right answer to the word `w`: an instruction whose word it is, `w` not being in R76's table, or its
refusal by its own value, `w` being in the table. -/
inductive RightOutcome (w : Word) : Except DecodeError Instr → Prop
  | ok (i : Instr) (hw : encode i = w) (hlegal : illegalWord w = false) : RightOutcome w (.ok i)
  | error (hill : illegalWord w = true) : RightOutcome w (.error (.unknownOpcode w))

section
variable {w : Word}

/-- One test of the decoder. -/
theorem RightOutcome.ite {c : Prop} [Decidable c] {d d' : Except DecodeError Instr}
    (h : c → RightOutcome w d) (h' : ¬c → RightOutcome w d') : RightOutcome w (if c then d else d') :=
  iteInduction h h'

theorem rightOutcome_decodeFamily0 (ht : topNibble w = 0x0#4) : RightOutcome w (decodeFamily0 w) := by
  unfold decodeFamily0
  refine .ite (fun h => .ok .cls h.symm (h ▸ rfl)) fun h0 => ?_
  refine .ite (fun h => .ok .ret h.symm (h ▸ rfl)) fun h1 => ?_
  exact .error (by simp [illegalWord_of_top0 w ht, h0, h1])

/-- The families 5 and 9 have one sub-opcode, low nibble 0 (R77). -/
theorem rightOutcome_of_lowNibble_zero {t : Nibble} (ht : topNibble w = t) (htop : t = 0x5#4 ∨ t = 0x9#4)
    {i : Instr} (hi : encode i = formatXyn t (fieldX w) (fieldY w) 0x0#4) :
    RightOutcome w (if lowNibble w = 0x0#4 then .ok i else .error (.unknownOpcode w)) := by
  have hill := illegalWord_of_top5_or_top9 w (ht ▸ htop)
  refine .ite (fun h => .ok i (hi.trans (formatXyn_of_fields ht h)) ?_) fun h => .error ?_
  · rw [hill, h]
    rfl
  · rw [hill, bne_iff_ne]
    exact h

theorem rightOutcome_decodeFamily8 (ht : topNibble w = 0x8#4) : RightOutcome w (decodeFamily8 w) := by
  have hill := illegalWord_of_top8 w ht
  have legal {l : Nibble} {i : Instr} (hi : encode i = formatXyn 0x8#4 (fieldX w) (fieldY w) l)
      (hlegal : [0x8, 0x9, 0xA, 0xB, 0xC, 0xD, 0xF].contains l.toNat = false) (hl : lowNibble w = l) :
      RightOutcome w (.ok i) :=
    .ok i (hi.trans (formatXyn_of_fields ht hl)) (by rw [hill, hl, hlegal])
  have rest : ∀ l : Nibble, l ∉ [0x0#4, 0x1#4, 0x2#4, 0x3#4, 0x4#4, 0x5#4, 0x6#4, 0x7#4, 0xE#4] →
      [0x8, 0x9, 0xA, 0xB, 0xC, 0xD, 0xF].contains l.toNat = true := by decide
  unfold decodeFamily8
  refine .ite (legal rfl rfl) fun h0 => .ite (legal rfl rfl) fun h1 => .ite (legal rfl rfl) fun h2 => ?_
  refine .ite (legal rfl rfl) fun h3 => .ite (legal rfl rfl) fun h4 => .ite (legal rfl rfl) fun h5 => ?_
  refine .ite (legal rfl rfl) fun h6 => .ite (legal rfl rfl) fun h7 => .ite (legal rfl rfl) fun hE => ?_
  exact .error (hill.trans (rest _ (by simp [h0, h1, h2, h3, h4, h5, h6, h7, hE])))

theorem rightOutcome_decodeFamilyE (ht : topNibble w = 0xE#4) : RightOutcome w (decodeFamilyE w) := by
  have hill := illegalWord_of_topE w ht
  have legal {k : Byte} {i : Instr} (hi : encode i = formatXkk 0xE#4 (fieldX w) k)
      (hlegal : [0x9E, 0xA1].contains k.toNat = true) (hk : fieldKk w = k) : RightOutcome w (.ok i) :=
    .ok i (hi.trans (formatXkk_of_fields ht hk)) (by rw [hill, hk, hlegal, Bool.not_true])
  unfold decodeFamilyE
  refine .ite (legal rfl rfl) fun h0 => .ite (legal rfl rfl) fun h1 => ?_
  simp only [← BitVec.toNat_inj] at h0 h1
  exact .error (by simpa [hill] using ⟨h0, h1⟩)

theorem rightOutcome_decodeFamilyF (ht : topNibble w = 0xF#4) : RightOutcome w (decodeFamilyF w) := by
  have hill := illegalWord_of_topF w ht
  have legal {k : Byte} {i : Instr} (hi : encode i = formatXkk 0xF#4 (fieldX w) k)
      (hlegal : [0x07, 0x0A, 0x15, 0x18, 0x1E, 0x29, 0x33, 0x55, 0x65].contains k.toNat = true)
      (hk : fieldKk w = k) : RightOutcome w (.ok i) :=
    .ok i (hi.trans (formatXkk_of_fields ht hk)) (by rw [hill, hk, hlegal, Bool.not_true])
  unfold decodeFamilyF
  refine .ite (legal rfl rfl) fun h0 => .ite (legal rfl rfl) fun h1 => .ite (legal rfl rfl) fun h2 => ?_
  refine .ite (legal rfl rfl) fun h3 => .ite (legal rfl rfl) fun h4 => .ite (legal rfl rfl) fun h5 => ?_
  refine .ite (legal rfl rfl) fun h6 => .ite (legal rfl rfl) fun h7 => .ite (legal rfl rfl) fun h8 => ?_
  simp only [← BitVec.toNat_inj] at h0 h1 h2 h3 h4 h5 h6 h7 h8
  exact .error (by simpa [hill] using ⟨h0, h1, h2, h3, h4, h5, h6, h7, h8⟩)

/-- One case per arm of the decode procedure (R74): an arm for a whole family by its format. -/
theorem rightOutcome_decodeWord (w : Word) : RightOutcome w (decodeWord w) := by
  have legal (h : (topNibble w).toNat ∈ [1, 2, 3, 4, 6, 7, 0xA, 0xB, 0xC, 0xD]) : illegalWord w = false :=
    illegalWord_of_whole_family w h
  unfold decodeWord
  split
  case h_1 ht => exact rightOutcome_decodeFamily0 (BitVec.eq_of_toNat_eq ht)
  case h_6 ht => exact rightOutcome_of_lowNibble_zero (BitVec.eq_of_toNat_eq ht) (.inl rfl) rfl
  case h_9 ht => exact rightOutcome_decodeFamily8 (BitVec.eq_of_toNat_eq ht)
  case h_10 ht => exact rightOutcome_of_lowNibble_zero (BitVec.eq_of_toNat_eq ht) (.inr rfl) rfl
  case h_15 ht => exact rightOutcome_decodeFamilyE (BitVec.eq_of_toNat_eq ht)
  case h_16 => exact rightOutcome_decodeFamilyF (topNibble_eq_F (by simp only [imp_false] at *; omega))
  case h_2 ht | h_3 ht | h_11 ht | h_12 ht =>
    exact .ok _ (formatNnn_of_fields (BitVec.eq_of_toNat_eq ht)) (legal (by rw [ht]; decide))
  case h_4 ht | h_5 ht | h_7 ht | h_8 ht | h_13 ht =>
    exact .ok _ (formatXkk_of_fields (BitVec.eq_of_toNat_eq ht) rfl) (legal (by rw [ht]; decide))
  case h_14 ht =>
    exact .ok _ (formatXyn_of_fields (BitVec.eq_of_toNat_eq ht) rfl) (legal (by rw [ht]; decide))

/-! ### What follows of a word's decoding -/

variable {i : Instr}

theorem encode_of_decodeWord (h : decodeWord w = .ok i) : encode i = w := by
  have right := rightOutcome_decodeWord w
  rw [h] at right
  cases right with
  | ok _ hw _ => exact hw

theorem illegalWord_of_error {e : DecodeError} (h : decodeWord w = .error e) : illegalWord w = true := by
  have right := rightOutcome_decodeWord w
  rw [h] at right
  cases right with
  | error hill => exact hill

theorem decodeWord_of_illegalWord (h : illegalWord w = true) : decodeWord w = .error (.unknownOpcode w) := by
  generalize hd : decodeWord w = d
  cases hd ▸ rightOutcome_decodeWord w with
  | ok _ _ hlegal => exact absurd (h.symm.trans hlegal) (by decide)
  | error _ => rfl

theorem decodes_of_not_illegalWord (h : illegalWord w = false) : ∃ i : Instr, decodeWord w = .ok i := by
  generalize hd : decodeWord w = d
  cases hd ▸ rightOutcome_decodeWord w with
  | ok i _ _ => exact ⟨i, rfl⟩
  | error hill => exact absurd (hill.symm.trans h) (by decide)

end

/-- Settles O2: a word that decodes is the format of its own fields. -/
theorem encodeOfDecodeIsIdentity : Obligations.EncodeOfDecodeIsIdentity := fun _ _ => encode_of_decodeWord

/-- Settles O4: each family refuses exactly its own entry of the table. -/
theorem illegalWordsAreRefused : Obligations.IllegalWordsAreRefused := fun _ =>
  ⟨decodeWord_of_illegalWord, decodes_of_not_illegalWord⟩

/-- Settles O5: the ten words that decode are encodings; the three refused are in the table. -/
theorem testVectorWordsDecode : Obligations.TestVectorWordsDecode :=
  ⟨decodeWord_encode .cls, decodeWord_encode .ret, decodeWord_encode (.seVxVy 1 2),
    decodeWord_encode (.subnVxVy 1 2), decodeWord_encode (.shlVx 1 2), decodeWord_encode (.jpV0Nnn 0xFFF),
    decodeWord_encode (.drwVxVyN 0 0 0), decodeWord_encode (.sknpVx 1), decodeWord_encode (.ldVxDt 1),
    decodeWord_encode (.ldVxK 1), decodeWord_of_illegalWord rfl, decodeWord_of_illegalWord rfl,
    decodeWord_of_illegalWord rfl⟩

end Sys2Proof
end

section
/-! Who may write what (10_state.md sections 1, 2, 4 and 12). What an instruction may write is said once, piece by
piece, in `WritesAsNamed`; that `FAULT` changes only where a call or a return raises is said once too. -/

namespace Sys2Proof.Machine

/-! ### Every piece of state but `V` and `PC` -/

/-- From `s` to `t` the instruction `i` wrote no piece of state but those its rows of R20 name, and `V` and
`PC`. -/
structure WritesAsNamed (i : Instr) (s t : State) : Prop where
  key : t.key = s.key
  mem : i.writesMem = false → t.mem = s.mem ∧ sameBytes s t
  index : i.writesI = false → t.i = s.i
  stack : (∀ nnn : Addr, i ≠ .callNnn nnn) → t.stack = s.stack
  spFault : i.usesStack = false → t.sp = s.sp ∧ t.fault = s.fault
  dt : (∀ x : Reg, i ≠ .ldDtVx x) → t.dt = s.dt
  st : (∀ x : Reg, i ≠ .ldStVx x) → t.st = s.st
  display : i.writesDisplay = false → t.fb = s.fb ∧ t.dirty = s.dirty
  draws : (∀ (x : Reg) (kk : Byte), i ≠ .rndVxKk x kk) → t.draws = s.draws

/-- `V` and `PC` are outside the matrix. -/
theorem WritesAsNamed.of_only_v_pc {i : Instr} {s t : State} (h : t = { s with v := t.v, pc := t.pc }) :
    WritesAsNamed i s t := by
  rw [h]
  exact ⟨rfl, fun _ => ⟨rfl, fun _ => rfl⟩, fun _ => rfl, fun _ => rfl, fun _ => ⟨rfl, rfl⟩, fun _ => rfl,
    fun _ => rfl, fun _ => ⟨rfl, rfl⟩, fun _ => rfl⟩

section
variable {i : Instr} {s t : State}

theorem exec_writesAsNamed (h : exec i s = .next t) : WritesAsNamed i s t := by
  cases i with
  | jpNnn | jpV0Nnn | seVxKk | sneVxKk | seVxVy | sneVxVy | skpVx | sknpVx | ldVxKk | addVxKk | ldVxVy
  | orVxVy | andVxVy | xorVxVy | addVxVy | subVxVy | shrVx | subnVxVy | shlVx | ldVxDt =>
    cases h
    exact .of_only_v_pc rfl
  | ldVxImem x =>
    cases h
    exact .of_only_v_pc (by rw [s.loadRegs_only_v]; rfl)
  | ldVxK x =>
    obtain ⟨k, -, hk⟩ | ⟨-, hk⟩ := execLdVxK_cases s x <;> cases hk.symm.trans h <;>
      exact .of_only_v_pc rfl
  | ret =>
    obtain ⟨_, hr⟩ | ⟨-, hr⟩ := execRet_cases s <;> cases hr.symm.trans h <;>
      constructor <;> simp [Instr.usesStack, sameBytes, State.readByte]
  | callNnn nnn =>
    obtain ⟨_, hc⟩ | ⟨-, hc⟩ := execCallNnn_cases s nnn <;> cases hc.symm.trans h <;>
      constructor <;> simp [Instr.usesStack, sameBytes, State.readByte]
  | cls | drwVxVyN => cases h; constructor <;> simp [Instr.writesDisplay, sameBytes]
  | ldINnn | addIVx | ldFVx => cases h; constructor <;> simp [Instr.writesI, sameBytes]
  | ldBVx | ldImemVx => cases h; constructor <;> simp [Instr.writesMem]
  | ldDtVx | ldStVx | rndVxKk => cases h; constructor <;> simp [sameBytes]

/-- `FAULT` changes only where a return raises on an empty stack or a call on a full one (R170). -/
theorem exec_fault_cases (h : exec i s = .next t) :
    t.fault = s.fault ∨
    (i = .ret ∧ s.sp.val = 0 ∧ t = s.raise .stackUnderflow (encode i)) ∨
    (∃ nnn : Addr, i = .callNnn nnn ∧ s.sp.val = 16 ∧ t = s.raise .stackOverflow (encode i)) := by
  cases hi : i.usesStack with
  | false => exact .inl ((exec_writesAsNamed h).spFault hi).2
  | true =>
    cases i with
    | ret =>
      obtain ⟨_, hr⟩ | ⟨hsp, hr⟩ := execRet_cases s <;> cases hr.symm.trans h
      · exact .inl rfl
      · exact .inr (.inl ⟨rfl, hsp, rfl⟩)
    | callNnn nnn =>
      obtain ⟨_, hc⟩ | ⟨hsp, hc⟩ := execCallNnn_cases s nnn <;> cases hc.symm.trans h
      · exact .inl rfl
      · exact .inr (.inr ⟨nnn, rfl, hsp, rfl⟩)
    | _ => cases hi

/-! ### The general registers -/

theorem flagByte_eq_zero_or_one (c : Bool) : flagByte c = 0 ∨ flagByte c = 1 := by
  cases c
  · exact .inl rfl
  · exact .inr rfl

theorem exec_reg_of_notMem (h : exec i s = .next t) {r : Reg} (hr : r ∉ i.regsWritten) :
    t.reg r = s.reg r := by
  cases i with
  | ldVxKk | addVxKk | ldVxVy | orVxVy | andVxVy | xorVxVy | rndVxKk | ldVxDt =>
    cases h
    exact State.reg_setReg_of_ne _ _ _ _ (List.ne_of_not_mem_cons hr)
  | addVxVy | subVxVy | shrVx | subnVxVy | shlVx =>
    cases h
    simp only [Instr.regsWritten, List.mem_cons, List.not_mem_nil, or_false, not_or] at hr
    rw [State.reg_advance, State.reg_setRegThenFlag, if_neg hr.2, if_neg hr.1]
  | drwVxVyN =>
    cases h
    rw [State.reg_advance, State.reg_setFlag, if_neg (List.ne_of_not_mem_cons hr), State.reg_showFb]
  | ldVxImem x =>
    cases h
    exact (s.reg_loadRegs (regsUpTo x) r).trans (if_neg hr)
  | ldVxK x =>
    obtain ⟨k, -, hk⟩ | ⟨-, hk⟩ := execLdVxK_cases s x <;> cases hk.symm.trans h
    · exact State.reg_setReg_of_ne _ _ _ _ (List.ne_of_not_mem_cons hr)
    · rfl
  | ret =>
    obtain ⟨_, hr⟩ | ⟨-, hr⟩ := execRet_cases s <;> cases hr.symm.trans h
    · rfl
    · exact s.reg_raise _ _ r
  | callNnn nnn =>
    obtain ⟨_, hc⟩ | ⟨-, hc⟩ := execCallNnn_cases s nnn <;> cases hc.symm.trans h
    · rfl
    · exact s.reg_raise _ _ r
  | cls | jpNnn | jpV0Nnn | seVxKk | sneVxKk | seVxVy | sneVxVy | skpVx | sknpVx | ldINnn | addIVx
  | ldFVx | ldBVx | ldImemVx | ldDtVx | ldStVx =>
    cases h
    rfl

/-- The flag is written last, so it is what `VF` holds also where x = 0xF (R121). -/
theorem exec_flag (h : exec i s = .next t) (hi : i.definesFlag = true) :
    ∃ c : Bool, t.reg 15 = flagByte c := by
  cases i with
  | addVxVy | subVxVy | shrVx | subnVxVy | shlVx | drwVxVyN =>
    cases h
    exact ⟨_, State.reg_setReg_self _ _ _⟩
  | _ => cases hi

/-! ### The program counter -/

theorem pcAdvancedBy_of_pc_eq {n : Nat} (h : t.pc = s.pc + BitVec.ofNat 16 n) : pcAdvancedBy n s t := by
  rw [pcAdvancedBy, h, BitVec.toNat_add, BitVec.toNat_ofNat]
  omega

theorem exec_pc_of_plain (h : exec i s = .next t) (hskip : i.isSkip = false)
    (hredirect : i.redirectsPc = false) : pcAdvancedBy 2 s t := by
  refine pcAdvancedBy_of_pc_eq ?_
  cases i with
  | jpNnn | callNnn | jpV0Nnn | ret | ldVxK => cases hredirect
  | seVxKk | sneVxKk | seVxVy | sneVxVy | skpVx | sknpVx => cases hskip
  | ldVxImem x =>
    cases h
    rw [State.advance_pc, State.loadRegs_pc]
    rfl
  | _ =>
    cases h
    rfl

theorem exec_pc_of_skip (h : exec i s = .next t) (hskip : i.isSkip = true) :
    pcAdvancedBy 2 s t ∨ pcAdvancedBy 4 s t := by
  have skip (c : Bool) : pcAdvancedBy 2 s (s.skipIf c) ∨ pcAdvancedBy 4 s (s.skipIf c) := by
    cases c
    · exact .inl (pcAdvancedBy_skipIf s false)
    · exact .inr (pcAdvancedBy_skipIf s true)
  cases i with
  | seVxKk | sneVxKk | seVxVy | sneVxVy | skpVx | sknpVx =>
    cases h
    exact skip _
  | _ => cases hskip

theorem exec_pc_of_fault (h : exec i s = .next t) (hfault : t.fault ≠ s.fault) : t.pc = s.pc := by
  obtain hsame | ⟨-, -, rfl⟩ | ⟨_, -, -, rfl⟩ := exec_fault_cases h
  · exact absurd hsame hfault
  · exact s.raise_pc _ _
  · exact s.raise_pc _ _

/-! ### Two runs that differ in `ST` and `DIRTY` -/

/-- `s` with `ST` and `DIRTY` replaced. -/
def State.withStDirty (s : State) (b : Byte) (d : Bool) : State := { s with st := b, dirty := d }

theorem State.raise_withStDirty (s : State) (b : Byte) (d : Bool) (cause : FaultCause) (op : Word) :
    (s.withStDirty b d).raise cause op = (s.raise cause op).withStDirty b d := by
  cases hf : s.fault with
  | none => rw [s.raise_of_none cause op hf, State.raise_of_none _ cause op (by exact hf)]; rfl
  | some f => rw [s.raise_of_some cause op f hf, State.raise_of_some _ cause op f (by exact hf)]

theorem State.loadRegs_withStDirty (s : State) (b : Byte) (d : Bool) (l : List Reg) :
    (s.withStDirty b d).loadRegs l = (s.loadRegs l).withStDirty b d := by
  induction l generalizing s with
  | nil => rfl
  | cons r l ih => exact ih (s.setReg r (s.readByte (s.dataAddr r.val)))

/-- Neither field is read: with both replaced, an instruction answers what it answered, but for those two. -/
theorem exec_withStDirty (i : Instr) (s : State) (b : Byte) (d : Bool) :
    ∃ (t : State) (b' : Byte) (d' : Bool), exec i s = .next t ∧
      exec i (s.withStDirty b d) = .next (t.withStDirty b' d') := by
  cases i with
  | ret =>
    by_cases hsp : s.sp.val = 0
    · exact ⟨s.raise .stackUnderflow (encode .ret), b, d, by rw [exec, execRet, s.pop_of_empty hsp],
        by rw [exec, execRet, State.pop_of_empty (s.withStDirty b d) hsp, State.raise_withStDirty]⟩
    · refine ⟨_, b, d, by rw [exec, execRet, s.pop_of_pos hsp], ?_⟩
      rw [exec, execRet, State.pop_of_pos (s.withStDirty b d) hsp]
      rfl
  | callNnn nnn =>
    by_cases hsp : s.sp.val < 16
    · refine ⟨_, b, d, by rw [exec, execCallNnn, s.push_of_lt _ hsp], ?_⟩
      rw [exec, execCallNnn, State.push_of_lt (s.withStDirty b d) _ hsp]
      rfl
    · exact ⟨s.raise .stackOverflow (encode (.callNnn nnn)), b, d,
        by rw [exec, execCallNnn, s.push_of_full _ hsp],
        by rw [exec, execCallNnn, State.push_of_full (s.withStDirty b d) _ hsp, State.raise_withStDirty]⟩
  | ldVxK x =>
    have same : (s.withStDirty b d).lowestKey = s.lowestKey := rfl
    simp only [exec, execLdVxK, same]
    cases s.lowestKey with
    | none => exact ⟨s, b, d, rfl, rfl⟩
    | some k => exact ⟨_, b, d, rfl, rfl⟩
  | ldVxImem x =>
    exact ⟨_, b, d, rfl, by rw [exec, execLdVxImem, State.loadRegs_withStDirty]; rfl⟩
  | ldStVx x => exact ⟨_, s.reg x, d, rfl, rfl⟩
  | cls | drwVxVyN => exact ⟨_, b, true, rfl, rfl⟩
  | _ => exact ⟨_, b, d, rfl, rfl⟩

end

/-- Settles O11: the matrix is `WritesAsNamed`. -/
theorem onlyNamedInstructionsWrite : Obligations.OnlyNamedInstructionsWrite := by
  intro i s t h
  obtain ⟨hkey, hmem, hindex, hstack, hspFault, hdt, hst, hdisplay, hdraws⟩ := exec_writesAsNamed h
  exact ⟨hkey, hmem, hindex, hstack, hspFault, hdt, hst, hdisplay, hdraws⟩

/-- Settles O12: `VF` is register 15. -/
theorem registersChangeOnlyAsNamed : Obligations.RegistersChangeOnlyAsNamed := by
  refine fun i s t h => ⟨fun r => exec_reg_of_notMem h, fun hi => ?_⟩
  obtain ⟨c, hc⟩ := exec_flag h hi
  rw [hc]
  exact flagByte_eq_zero_or_one c

/-- Settles O13: one lemma for each class, the key wait by its two outcomes. -/
theorem programCounterMovesByClass : Obligations.ProgramCounterMovesByClass := by
  refine fun i s t h => ⟨exec_pc_of_plain h, exec_pc_of_skip h, fun x hx => ?_, exec_pc_of_fault h⟩
  subst hx
  obtain ⟨k, -, hk⟩ | ⟨-, hk⟩ := execLdVxK_cases s x <;> cases hk.symm.trans h
  · exact .inr (pcAdvancedBy_advance_setReg s x _)
  · exact .inl rfl

/-- Settles O14: neither the halting, nor the fetched word, nor the instruction reads the two fields. -/
theorem noInstructionReadsSoundTimerOrDirty : Obligations.NoInstructionReadsSoundTimerOrDirty := by
  intro s b d
  change ∃ t t' : State, step s = .next t ∧ step (s.withStDirty b d) = .next t' ∧
    t' = { t with st := t'.st, dirty := t'.dirty }
  have word : (s.withStDirty b d).fetchWord = s.fetchWord := rfl
  cases hf : s.fault with
  | some f => exact ⟨_, _, step_of_halted s f hf, step_of_halted _ f hf, rfl⟩
  | none =>
    cases hd : decodeWord s.fetchWord with
    | error e =>
      refine ⟨_, _, step_of_undecoded s e hf hd, step_of_undecoded _ e hf (by rw [word, hd]), ?_⟩
      rw [word, State.raise_withStDirty]
      rfl
    | ok i =>
      obtain ⟨t, b', d', ht, ht'⟩ := exec_withStDirty i s b d
      exact ⟨t, t.withStDirty b' d', (step_of_decoded s i hf hd).trans ht,
        (step_of_decoded (s.withStDirty b d) i hf (by rw [word, hd])).trans ht', rfl⟩

end Sys2Proof.Machine
end

section
/-! The step, its faults and the invariant (60_exceptions.md sections 1, 3 and 6; 10_state.md section 3). The
condition of each cause is `FaultCondition`: a step records a cause exactly where its condition holds, so O8 is the
two directions and the fault part of the invariant is one of them. -/

namespace Sys2Proof.Machine

/-- Settles O7: the three cases of a step, the miss by what taking a fault does. -/
theorem stepRunsDecodedInstruction : Obligations.StepRunsDecodedInstruction := fun s =>
  ⟨fun i hf hd => step_of_decoded s i hf hd,
    fun e hf hd => (step_of_undecoded s e hf hd).trans (by rw [s.raise_of_none _ _ hf]),
    fun f hf => step_of_halted s f hf⟩

/-- Settles O10: one case per cause, whose code is R170's. -/
theorem faultReportShowsPointOfFailure : Obligations.FaultReportShowsPointOfFailure := by
  refine fun s => ⟨fun hf => by rw [faultReport, hf], fun f hf => ?_⟩
  rw [faultReport, hf]
  refine ⟨_, rfl, ?_, rfl, rfl, rfl, rfl, rfl, rfl, rfl, rfl, rfl⟩
  cases f.cause <;> rfl

/-! ### The words of the calls -/

/-- The words of family 2 are the calls. -/
theorem decodeWord_of_top2 {w : Word} (h : w.toNat / 0x1000 = 2) : decodeWord w = .ok (.callNnn (fieldNnn w)) :=
  decodeWord_of_encode_eq
    (formatNnn_of_fields (BitVec.eq_of_toNat_eq ((toNat_topNibble w).trans h)))

theorem encode_callNnn_top (nnn : Addr) : (encode (.callNnn nnn)).toNat / 0x1000 = 2 := by
  have := nnn.isLt
  rw [encode, toNat_formatNnn, BitVec.toNat_ofNat]
  omega

/-! ### Where a step faults -/

/-- The condition of R170 under which a step of `s` records the cause; a load is no step. -/
def FaultCondition (s : State) : FaultCause → Prop
  | .decodeFault => illegalWord s.fetchWord = true
  | .stackOverflow => s.fetchWord.toNat / 0x1000 = 2 ∧ s.sp = 16
  | .stackUnderflow => s.fetchWord = 0x00EE ∧ s.sp = 0
  | .loadFault => False

section
variable {s t : State}

theorem step_answers (s : State) : ∃ t : State, step s = .next t := by
  obtain ⟨t, -, ht, -⟩ := noInstructionReadsSoundTimerOrDirty s s.st s.dirty
  exact ⟨t, ht⟩

/-- Where a cause's condition holds, the step records it (R173 to R175). -/
theorem step_of_faultCondition (hf : s.fault = none) {cause : FaultCause} (hc : FaultCondition s cause) :
    step s = .next (s.raise cause s.fetchWord) := by
  cases cause with
  | decodeFault => exact step_of_undecoded s _ hf (decodeWord_of_illegalWord hc)
  | stackOverflow =>
    obtain ⟨hw, hsp⟩ := hc
    have hd := decodeWord_of_top2 hw
    have full : ¬ s.sp.val < 16 := by rw [hsp]; decide
    rw [step_of_decoded s _ hf hd, exec, execCallNnn, s.push_of_full _ full, encode_of_decodeWord hd]
  | stackUnderflow =>
    obtain ⟨hw, hsp⟩ := hc
    have hd : decodeWord s.fetchWord = .ok .ret := decodeWord_of_encode_eq hw.symm
    have empty : s.sp.val = 0 := by rw [hsp]; rfl
    rw [step_of_decoded s _ hf hd, exec, execRet, s.pop_of_empty empty, encode_of_decodeWord hd]
  | loadFault => exact hc.elim

/-- A step records no fault but one whose condition holds. -/
theorem step_fault_cases (hf : s.fault = none) (h : step s = .next t) :
    t.fault = none ∨ ∃ cause : FaultCause, FaultCondition s cause ∧ t = s.raise cause s.fetchWord := by
  cases hd : decodeWord s.fetchWord with
  | error e =>
    cases (step_of_undecoded s e hf hd).symm.trans h
    exact .inr ⟨.decodeFault, illegalWord_of_error hd, rfl⟩
  | ok i =>
    have hw := encode_of_decodeWord hd
    obtain hsame | ⟨rfl, hsp, rfl⟩ | ⟨nnn, rfl, hsp, rfl⟩ :=
      exec_fault_cases ((step_of_decoded s i hf hd).symm.trans h)
    · exact .inl (hsame.trans hf)
    · exact .inr ⟨.stackUnderflow, ⟨hw.symm, Fin.ext hsp⟩, by rw [hw]⟩
    · exact .inr ⟨.stackOverflow, ⟨hw ▸ encode_callNnn_top nnn, Fin.ext hsp⟩, by rw [hw]⟩

end

/-- Settles O8: a cause whose condition holds is recorded, and no other. -/
theorem stepFaultsExactlyWhereTheTaxonomySays : Obligations.StepFaultsExactlyWhereTheTaxonomySays := by
  intro s hf
  obtain ⟨t, ht⟩ := step_answers s
  have recorded {cause : FaultCause} (hc : FaultCondition s cause) :
      t = { s with fault := some { cause := cause, opcode := s.fetchWord, pc := s.pc } } := by
    rw [← s.raise_of_none cause s.fetchWord hf]
    exact Host.Outcome.next.inj (ht.symm.trans (step_of_faultCondition hf hc))
  refine ⟨t, ht, fun hill => recorded (cause := .decodeFault) hill,
    fun hw hsp => recorded (cause := .stackOverflow) ⟨hw, hsp⟩,
    fun hw hsp => recorded (cause := .stackUnderflow) ⟨hw, hsp⟩, fun hlegal hcall hret => ?_⟩
  obtain hnone | ⟨cause, hc, -⟩ := step_fault_cases hf ht
  · exact hnone
  · cases cause with
    | decodeFault => exact absurd (hlegal.symm.trans hc) (by decide)
    | stackOverflow => exact absurd hc hcall
    | stackUnderflow => exact absurd hc hret
    | loadFault => exact hc.elim

/-! ### The invariant -/

section
variable {i : Instr} {s t : State}

theorem exec_memCanonical (h : exec i s = .next t) (hm : s.mem.wf = true) : t.mem.wf = true := by
  cases hi : i.writesMem with
  | false =>
    rw [((exec_writesAsNamed h).mem hi).1]
    exact hm
  | true =>
    cases i with
    | ldBVx | ldImemVx =>
      cases h
      exact Memory.wf_writeBytes _ _ _ hm
    | _ => cases hi

/-- The constant has 12 bits, the sum is reduced modulo 4096, and the last glyph is at 5 * 255. -/
theorem exec_indexInRange (h : exec i s = .next t) (hindex : s.i.toNat < 4096) : t.i.toNat < 4096 := by
  cases hi : i.writesI with
  | false =>
    rw [(exec_writesAsNamed h).index hi]
    exact hindex
  | true =>
    cases i with
    | ldINnn nnn =>
      cases h
      exact (toNat_addrOperand nnn).trans_lt nnn.isLt
    | addIVx x =>
      cases h
      exact (toNat_maskedIndexSum s.i (s.reg x)).trans_lt (Nat.mod_lt _ (by decide))
    | ldFVx x =>
      cases h
      have := (s.reg x).isLt
      exact (toNat_glyphAddr (s.reg x)).trans_lt (by omega)
    | _ => cases hi

theorem faultExplained_of_none (hf : s.fault = none) : faultExplained s := by
  intro f hsome
  rw [hf] at hsome
  cases hsome

/-- Taking a fault whose condition holds leaves the word, `PC` and `SP` that explain it. -/
theorem faultExplained_raise (hf : s.fault = none) {cause : FaultCause} (hc : FaultCondition s cause) :
    faultExplained (s.raise cause s.fetchWord) := by
  rw [s.raise_of_none cause s.fetchWord hf]
  rintro f ⟨⟩
  cases cause with
  | decodeFault => exact ⟨rfl, rfl, hc⟩
  | stackOverflow => exact ⟨rfl, rfl, hc⟩
  | stackUnderflow => exact ⟨rfl, rfl, hc⟩
  | loadFault => exact hc.elim

theorem step_keeps_inv (hs : Inv s) (h : step s = .next t) : Inv t := by
  cases hf : s.fault with
  | some f =>
    cases (step_of_halted s f hf).symm.trans h
    exact hs
  | none =>
    have explained : faultExplained t := by
      obtain hnone | ⟨cause, hc, rfl⟩ := step_fault_cases hf h
      · exact faultExplained_of_none hnone
      · exact faultExplained_raise hf hc
    cases hd : decodeWord s.fetchWord with
    | error e =>
      cases (step_of_undecoded s e hf hd).symm.trans h
      exact ⟨by rw [s.raise_mem]; exact hs.memCanonical, by rw [s.raise_i]; exact hs.indexInRange, explained⟩
    | ok i =>
      have hexec := (step_of_decoded s i hf hd).symm.trans h
      exact ⟨exec_memCanonical hexec hs.memCanonical, exec_indexInRange hexec hs.indexInRange, explained⟩

end

/-- Settles O48: memory and `I` by the instructions that write them, the record by its cause's condition. -/
theorem stepKeepsTheInvariant : Obligations.StepKeepsTheInvariant := fun _ _ => step_keeps_inv

/-- Settles O47: reset lists no memory cell and records no fault. -/
theorem resetMeetsTheInvariant : Obligations.ResetMeetsTheInvariant :=
  ⟨wf_reset, by decide, faultExplained_of_none rfl⟩

end Sys2Proof.Machine
end

section
/-! Ticks and schedules (60_exceptions.md section 6; 70_reset_and_hazards.md section 5; 00_scope.md section 6). The
induction over a schedule is said once, in `runEvents_keeps`: what every event of it keeps, the schedule keeps. Each
statement then names its predicate and looks at the four events. -/

namespace Sys2Proof.Machine

/-! ### The tick -/

theorem toNat_decay (b : Byte) : (decay b).toNat = b.toNat - 1 := by
  unfold decay
  split_ifs with hb
  · subst hb
    rfl
  · have hlt := b.isLt
    have hpos : b.toNat ≠ 0 := fun h => hb (BitVec.eq_of_toNat_eq h)
    rw [BitVec.toNat_sub]
    simp only [BitVec.reduceToNat]
    omega

section
variable (s : State)

theorem tick_of_running (h : s.fault = none) : tick s = { s with dt := decay s.dt, st := decay s.st } := by
  simp [tick, s.halted_eq_false h]

theorem tick_of_halted (f : FaultRecord) (h : s.fault = some f) : tick s = s := by
  simp [tick, s.halted_eq_true f h]

end

/-- Settles O41: a running core's tick is one decay of each timer. -/
theorem tickDecrementsNonzeroTimers : Obligations.TickDecrementsNonzeroTimers := by
  refine fun s => ⟨fun hf => ?_, tick_of_halted s⟩
  rw [tick_of_running s hf]
  exact ⟨toNat_decay s.dt, toNat_decay s.st, rfl⟩

/-- Settles O42, by induction on the number of ticks: the first one decays both timers and leaves the core
running. -/
theorem timersDecayToZeroAndStay : Obligations.TimersDecayToZeroAndStay := by
  intro n
  induction n with
  | zero => exact fun s _ => ⟨s, rfl, rfl, rfl, rfl⟩
  | succ n ih =>
    intro s hf
    obtain ⟨t, ht, hdt, hst, hframe⟩ := ih { s with dt := decay s.dt, st := decay s.st } hf
    refine ⟨t, ?_, ?_, ?_, hframe⟩
    · rw [← ht, ← tick_of_running s hf]
      rfl
    · rw [hdt, toNat_decay]
      omega
    · rw [hst, toNat_decay]
      omega

/-! ### Schedules -/

/-- What every event of a schedule keeps, the schedule keeps, and it ends in a next state. -/
theorem runEvents_keeps (P : State → Prop) (es : List Event)
    (event : ∀ e ∈ es, ∀ s : State, P s → ∃ t : State, applyEvent e s = .next t ∧ P t) (s : State) (hs : P s) :
    ∃ t : State, runEvents es s = .next t ∧ P t := by
  induction es generalizing s with
  | nil => exact ⟨s, rfl, hs⟩
  | cons e es ih =>
    obtain ⟨t, ht, hPt⟩ := event e List.mem_cons_self s hs
    rw [runEvents, ht]
    exact ih (fun e' he' => event e' (List.mem_cons_of_mem e he')) t hPt

/-- A tick is idle in the halted state, and in a running one no fault has to be explained. -/
theorem tick_keeps_inv {s : State} (hs : Inv s) : Inv (tick s) := by
  cases hf : s.fault with
  | some f =>
    rw [tick_of_halted s f hf]
    exact hs
  | none =>
    rw [tick_of_running s hf]
    exact ⟨hs.memCanonical, hs.indexInRange, faultExplained_of_none hf⟩

/-- Settles O49: the invariant reads none of the fields that the host's events write. -/
theorem scheduleKeepsTheInvariant : Obligations.ScheduleKeepsTheInvariant := by
  refine fun es => runEvents_keeps Inv es fun e _ s hs => ?_
  cases e with
  | step =>
    obtain ⟨t, ht⟩ := step_answers s
    exact ⟨t, ht, step_keeps_inv hs ht⟩
  | tick => exact ⟨_, rfl, tick_keeps_inv hs⟩
  | setKeys k => exact ⟨_, rfl, hs.memCanonical, hs.indexInRange, hs.faultIsExplained⟩
  | display => exact ⟨_, rfl, hs.memCanonical, hs.indexInRange, hs.faultIsExplained⟩

/-- Settles O9: a halted core's step and tick are idle, and the host's events write the other two fields. -/
theorem haltedCoreKeepsItsFault : Obligations.HaltedCoreKeepsItsFault := by
  intro es s f hf
  refine runEvents_keeps (fun t => t = { s with key := t.key, dirty := t.dirty }) es ?_ s rfl
  rintro e - t ht
  have hft : t.fault = some f := by
    rw [ht]
    exact hf
  cases e with
  | step => exact ⟨t, step_of_halted t f hft, ht⟩
  | tick => exact ⟨t, congrArg Host.Outcome.next (tick_of_halted t f hft), ht⟩
  | setKeys k => exact ⟨_, rfl, by rw [ht]; rfl⟩
  | display => exact ⟨_, rfl, by rw [ht]; rfl⟩

/-! ### Cores that stay where they are (R212) -/

section
variable {s : State}

theorem step_of_waitingAt {a : Word} {x : Reg} (h : waitingAt a x s) : step s = .next s := by
  obtain ⟨hf, -, hd, hkeys⟩ := h
  rw [step_of_decoded s _ hf hd, exec, execLdVxK, s.lowestKey_eq_none.2 hkeys]

theorem step_of_parkedAt {a : Addr} (h : parkedAt a s) : step s = .next s := by
  obtain ⟨hf, hpc, hd⟩ := h
  rw [step_of_decoded s _ hf hd]
  exact congrArg Host.Outcome.next (s.jump_self hpc)

end

/-- Settles O39: being a waiting core reads none of the three fields that may change. -/
theorem waitingLastsUntilKeysChange : Obligations.WaitingLastsUntilKeysChange := by
  intro es a x s hs hkeys
  refine runEvents_keeps (fun t => t = { s with dt := t.dt, st := t.st, dirty := t.dirty } ∧ waitingAt a x t)
    es ?_ s ⟨rfl, hs⟩
  rintro e he t ⟨ht, hwait⟩
  cases e with
  | step => exact ⟨t, step_of_waitingAt hwait, ht, hwait⟩
  | tick => exact ⟨_, congrArg Host.Outcome.next (tick_of_running t hwait.1), by rw [ht], hwait⟩
  | setKeys k => exact absurd he (hkeys k)
  | display => exact ⟨_, rfl, by rw [ht]; rfl, hwait⟩

/-- Settles O40: being a parked core reads none of the four fields that may change. -/
theorem parkedCoreStaysParked : Obligations.ParkedCoreStaysParked := by
  intro es a s hs
  refine runEvents_keeps
    (fun t => t = { s with dt := t.dt, st := t.st, key := t.key, dirty := t.dirty } ∧ parkedAt a t) es ?_ s ⟨rfl, hs⟩
  rintro e - t ⟨ht, hpark⟩
  cases e with
  | step => exact ⟨t, step_of_parkedAt hpark, ht, hpark⟩
  | tick => exact ⟨_, congrArg Host.Outcome.next (tick_of_running t hpark.1), by rw [ht], hpark⟩
  | setKeys k => exact ⟨_, rfl, by rw [ht]; rfl, hpark⟩
  | display => exact ⟨_, rfl, by rw [ht]; rfl, hpark⟩

end Sys2Proof.Machine
end

section
/-! Addition, subtraction, shifts and the random byte (41_alu.md R121, R128 to R133). The five instructions with a
flag answer one update, a byte to `Vx` and then the flag to `VF`, which is said once; they differ in the
byte and in the flag. -/

namespace Sys2Proof.Machine

/-! ### The update with a flag -/

section
variable (s : State) (x : Reg) (b : Byte) (c : Bool)

theorem reg_advance_setRegThenFlag (hx : x ≠ 15) : (s.setRegThenFlag x b c).advance.reg x = b := by
  rw [State.reg_advance, State.reg_setRegThenFlag]
  exact (if_neg hx).trans (if_pos rfl)

/-- The flag is written last (R121). -/
theorem flag_advance_setRegThenFlag : (s.setRegThenFlag x b c).advance.reg 15 = flagByte c :=
  (s.setReg x b).reg_setReg_self vf (flagByte c)

theorem advance_setRegThenFlag_frame :
    pcAdvancedBy 2 s (s.setRegThenFlag x b c).advance ∧ onlyRegs [x, 15] s (s.setRegThenFlag x b c).advance := by
  refine ⟨BitVec.toNat_add s.pc 2, rfl, fun r hr => ?_, fun _ => rfl⟩
  simp only [List.mem_cons, List.not_mem_nil, or_false, not_or] at hr
  rw [State.reg_advance, State.reg_setRegThenFlag]
  exact (if_neg hr.2).trans (if_neg hr.1)

end

/-! ### Flags and results as numbers -/

theorem flagByte_decide (p : Prop) [Decidable p] : flagByte (decide p) = if p then 1 else 0 := by
  simp [flagByte]

section
variable (a b : Byte)

theorem flagByte_carryOut : flagByte (carryOut a b) = if a.toNat + b.toNat > 255 then 1 else 0 :=
  flagByte_decide _

theorem flagByte_noBorrow : flagByte (noBorrow a b) = if a.toNat ≥ b.toNat then 1 else 0 :=
  flagByte_decide _

theorem toNat_sub_byte : (a - b).toNat = (a.toNat + 256 - b.toNat) % 256 := by
  have := b.isLt
  rw [BitVec.toNat_sub]
  omega

theorem toNat_shr_byte : (a >>> 1).toNat = a.toNat / 2 := by
  rw [BitVec.toNat_ushiftRight, Nat.shiftRight_one]

theorem toNat_shl_byte : (a <<< 1).toNat = 2 * a.toNat % 256 := by
  rw [BitVec.toNat_shiftLeft, Nat.shiftLeft_eq, Nat.mul_comm]

theorem toNat_flagByte_bitOutRight : (flagByte (bitOutRight a)).toNat = a.toNat % 2 := by
  rw [toNat_flagByte, bitOutRight, BitVec.getLsbD, Nat.testBit_zero]
  simp only [decide_eq_true_eq]
  split_ifs <;> omega

theorem toNat_flagByte_bitOutLeft : (flagByte (bitOutLeft a)).toNat = a.toNat / 128 := by
  have := a.isLt
  rw [toNat_flagByte, bitOutLeft, BitVec.getLsbD, Nat.testBit_eq_decide_div_mod_eq]
  simp only [decide_eq_true_eq]
  split_ifs <;> omega

end

/-- Settles O17: the byte is the sum or a difference modulo 256, the flag the carry or the absence of a borrow. -/
theorem addSubtractResultsAndFlag : Obligations.AddSubtractResultsAndFlag := by
  refine fun x y s => ⟨decodeWord_of_encode_eq (formatXyn_eq_pattern 0x8#4 x y 0x4#4),
    decodeWord_of_encode_eq (formatXyn_eq_pattern 0x8#4 x y 0x5#4),
    decodeWord_of_encode_eq (formatXyn_eq_pattern 0x8#4 x y 0x7#4),
    ⟨_, rfl, fun hx => ?add, ?carry, advance_setRegThenFlag_frame s x _ _⟩,
    ⟨_, rfl, fun hx => ?sub, ?subBorrow, advance_setRegThenFlag_frame s x _ _⟩,
    ⟨_, rfl, fun hx => ?subn, ?subnBorrow, advance_setRegThenFlag_frame s x _ _⟩⟩
  case add => rw [reg_advance_setRegThenFlag _ _ _ _ hx, BitVec.toNat_add]
  case carry => rw [flag_advance_setRegThenFlag, flagByte_carryOut]
  case sub => rw [reg_advance_setRegThenFlag _ _ _ _ hx, toNat_sub_byte]
  case subBorrow => rw [flag_advance_setRegThenFlag, flagByte_noBorrow]
  case subn => rw [reg_advance_setRegThenFlag _ _ _ _ hx, toNat_sub_byte]
  case subnBorrow => rw [flag_advance_setRegThenFlag, flagByte_noBorrow]

/-- Settles O18: the byte is half or twice `Vx` modulo 256, the flag its lowest or its highest bit. -/
theorem shiftResultsAndFlag : Obligations.ShiftResultsAndFlag := by
  refine fun x y s => ⟨decodeWord_of_encode_eq (formatXyn_eq_pattern 0x8#4 x y 0x6#4),
    decodeWord_of_encode_eq (formatXyn_eq_pattern 0x8#4 x y 0xE#4),
    ⟨_, rfl, fun hx => ?shr, ?outRight, advance_setRegThenFlag_frame s x _ _⟩,
    ⟨_, rfl, fun hx => ?shl, ?outLeft, advance_setRegThenFlag_frame s x _ _⟩⟩
  case shr => rw [reg_advance_setRegThenFlag _ _ _ _ hx, toNat_shr_byte]
  case outRight => rw [flag_advance_setRegThenFlag, toNat_flagByte_bitOutRight]
  case shl => rw [reg_advance_setRegThenFlag _ _ _ _ hx, toNat_shl_byte]
  case outLeft => rw [flag_advance_setRegThenFlag, toNat_flagByte_bitOutLeft]

/-- Settles O19: whatever the draw, masking it by `kk` leaves no bit that `kk` lacks. -/
theorem randomByteIsMasked : Obligations.RandomByteIsMasked := by
  intro x kk s
  have result : (s.drawTaken.setReg x (s.nextDraw &&& kk)).advance.reg x = Config.draw s.draws &&& kk :=
    s.drawTaken.reg_setReg_self x _
  refine ⟨decodeWord_of_encode_eq (formatXkk_eq_pattern 0xC#4 x kk), _, rfl, result, ?_, fun hkk => ?_, rfl,
    BitVec.toNat_add s.pc 2, fun r hr => s.drawTaken.reg_setReg_of_ne x r _ hr, fun _ => rfl, rfl⟩
  · rw [result, BitVec.and_assoc, BitVec.and_not_self]
    exact BitVec.and_zero
  · rw [result, hkk]
    exact BitVec.and_zero

end Sys2Proof.Machine
end

section
/-! The indexed jump, the subroutine calls and the key skips (40_control_flow.md sections 1 and 2;
44_keys_timers.md section 2). A call's and a return's two outcomes are `execCallNnn_cases` and `execRet_cases`; a
depth decides between them. -/

namespace Sys2Proof.Machine

/-- Settles O21: the indexed target fits 16 bits. -/
theorem indexedJumpAddsRegisterZero : Obligations.IndexedJumpAddsRegisterZero := fun nnn s =>
  ⟨decodeWord_of_encode_eq (formatNnn_eq_pattern 0xB#4 nnn), _, rfl, toNat_indexedTarget nnn (s.reg 0),
    onlyPc_jump s _⟩

/-! ### Calls and returns, by depth -/

section
variable (s : State)

theorem execCallNnn_of_lt (nnn : Addr) (h : s.sp.val < 16) :
    execCallNnn nnn s =
      .next { s with
        stack := s.stack.set s.sp.val (s.pc + 2), sp := ⟨s.sp.val + 1, by omega⟩, pc := addrOperand nnn } := by
  obtain ⟨_, hc⟩ | ⟨hsp, -⟩ := execCallNnn_cases s nnn
  · exact hc
  · omega

theorem execCallNnn_of_full (nnn : Addr) (h : s.sp.val = 16) :
    execCallNnn nnn s = .next (s.raise .stackOverflow (encode (.callNnn nnn))) := by
  obtain ⟨hsp, -⟩ | ⟨-, hc⟩ := execCallNnn_cases s nnn
  · omega
  · exact hc

theorem execRet_of_succ {k : Nat} (hk : k < 16) (h : s.sp.val = k + 1) :
    execRet s = .next { s with pc := s.stack[k], sp := ⟨k, by omega⟩ } := by
  obtain ⟨_, hr⟩ | ⟨hsp, -⟩ := execRet_cases s
  · simpa only [h, Nat.add_sub_cancel] using hr
  · omega

theorem execRet_of_empty (h : s.sp.val = 0) : execRet s = .next (s.raise .stackUnderflow (encode .ret)) := by
  obtain ⟨hsp, -⟩ | ⟨-, hr⟩ := execRet_cases s
  · exact absurd h hsp
  · exact hr

end

/-- Settles O22: the slot written is the one at the old depth. -/
theorem callPushesOrOverflows : Obligations.CallPushesOrOverflows := by
  intro nnn s
  have word := formatNnn_eq_pattern 0x2#4 nnn
  refine ⟨decodeWord_of_encode_eq word, fun hsp => ?_, fun hsp hf => ?_⟩
  · refine ⟨_, execCallNnn_of_lt s nnn hsp, rfl, toNat_addrOperand nnn, fun k hk => ?_, rfl, fun _ => rfl⟩
    rw [Vector.getElem_set]
    exact if_congr eq_comm rfl rfl
  · exact (execCallNnn_of_full s nnn hsp).trans
      (congrArg _ ((s.raise_of_none _ _ hf).trans (by rw [encode, word]; rfl)))

/-- Settles O23: the slot vacated is the one below the depth. -/
theorem returnPopsOrUnderflows : Obligations.ReturnPopsOrUnderflows := fun s =>
  ⟨decodeWord_encode .ret,
    fun _ hk hsp => ⟨_, execRet_of_succ s hk hsp, rfl, rfl, rfl, fun _ => rfl⟩,
    fun hsp hf => (execRet_of_empty s hsp).trans (congrArg _ (s.raise_of_none _ _ hf))⟩

/-- Settles O24: the return pops the slot the call wrote, which holds the address after the call. -/
theorem returnComesBackAfterCall : Obligations.ReturnComesBackAfterCall := by
  intro nnn s t u h hcall hsp hslot
  cases (execCallNnn_of_lt s nnn h).symm.trans hcall
  have popped : u.stack[s.sp.val] = s.pc + 2 := hslot.trans (Vector.getElem_set_self h)
  refine ⟨_, execRet_of_succ u h (congrArg Fin.val hsp), ?_, rfl, rfl⟩
  exact pcAdvancedBy_of_pc_eq popped

/-- Settles O27: the low nibble is the key's number, and the skips are one skip on its state and the opposite. -/
theorem keySkipsTestLowNibble : Obligations.KeySkipsTestLowNibble := by
  refine fun x s => ⟨decodeWord_of_encode_eq (formatXkk_eq_pattern 0xE#4 x 0x9E#8),
    decodeWord_of_encode_eq (formatXkk_eq_pattern 0xE#4 x 0xA1#8), fun k hk => ?_⟩
  obtain rfl : k = keyIndex (s.reg x) := Fin.ext hk
  refine ⟨⟨_, rfl, pcAdvancedBy_skipIf s _, onlyPc_skipIf s _⟩, ⟨_, rfl, ?_, onlyPc_skipIf s _⟩⟩
  have h := pcAdvancedBy_skipIf s (!s.keyDown (keyIndex (s.reg x)))
  simpa only [Bool.not_eq_true', ← Bool.not_eq_true, ite_not] using h

end Sys2Proof.Machine
end

section
/-! The glyph address, the load of registers, the timer moves and the key wait (42_index_memory.md section 2;
44_keys_timers.md section 2). -/

namespace Sys2Proof.Machine

/-- Settles O29: the whole byte is multiplied, and the glyph of a digit ends in the font region. -/
theorem glyphAddressIsFiveTimesRegister : Obligations.GlyphAddressIsFiveTimesRegister := by
  intro x s
  have hglyph := toNat_glyphAddr (s.reg x)
  refine ⟨decodeWord_of_encode_eq (formatXkk_eq_pattern 0xF#4 x 0x29#8), _, rfl, hglyph, fun hdigit => ?_,
    advance_setI_frame s _⟩
  rw [State.advance_i, State.setI_i, hglyph]
  omega

/-! ### Registers loaded (R146) -/

/-- The registers up to x hold their bytes of memory, and the others are kept. -/
theorem reg_loadRegs_upTo (s : State) (x r : Reg) :
    (s.loadRegs (regsUpTo x)).reg r =
      if r ≤ x then s.readByte ((s.i.toNat + r.val) % 4096) else s.reg r := by
  rw [State.reg_loadRegs, State.readByte_mod]
  exact if_congr (mem_regsUpTo x r) rfl rfl

/-- Settles O32: loading is a change of `V` alone. -/
theorem registersAreLoaded : Obligations.RegistersAreLoaded := by
  refine fun x s => ⟨decodeWord_of_encode_eq (formatXkk_eq_pattern 0xF#4 x 0x65#8), _, rfl,
    reg_loadRegs_upTo s x, ?_, ?_, s.readByte_loadRegs (regsUpTo x)⟩
  · rw [pcAdvancedBy, State.advance_pc, State.loadRegs_pc]
    exact BitVec.toNat_add s.pc 2
  · rw [s.loadRegs_only_v]
    rfl

/-- Settles O33: the bytes loaded are those stored, memory and `I` being the same. -/
theorem loadAfterStoreRestoresRegisters : Obligations.LoadAfterStoreRestoresRegisters := by
  intro x s t u hm hstore hmem hindex
  cases hstore
  refine ⟨_, rfl, fun r => (reg_loadRegs_upTo u x r).trans ?_⟩
  split_ifs with hr
  · rw [hindex, State.readByte, hmem]
    exact readByte_advance_storeRegs s hm s.i.toNat hr
  · rfl

/-! ### Timers and the key wait -/

/-- Settles O37: the first move is one update of a register, the others of a timer. -/
theorem timerMovesCopyTheByte : Obligations.TimerMovesCopyTheByte := fun x s =>
  ⟨decodeWord_of_encode_eq (formatXkk_eq_pattern 0xF#4 x 0x07#8),
    decodeWord_of_encode_eq (formatXkk_eq_pattern 0xF#4 x 0x15#8),
    decodeWord_of_encode_eq (formatXkk_eq_pattern 0xF#4 x 0x18#8),
    ⟨_, rfl, s.reg_setReg_self x s.dt, advance_setReg_frame s x _⟩,
    ⟨_, rfl, rfl, BitVec.toNat_add s.pc 2, rfl, fun _ => rfl⟩,
    ⟨_, rfl, rfl, BitVec.toNat_add s.pc 2, rfl, fun _ => rfl⟩⟩

/-- Of two pressed keys below each of which none is pressed, neither is below the other. -/
theorem State.lowestKey_of_lowest (s : State) {k : Key} (hk : s.keyDown k = true)
    (hbelow : ∀ j : Key, j < k → s.keyDown j = false) : s.lowestKey = some k := by
  cases hlow : s.lowestKey with
  | none =>
    have hup := s.lowestKey_eq_none.1 hlow k
    exact absurd (hk.symm.trans hup) (by decide)
  | some j =>
    obtain ⟨hj, hbelowj⟩ := s.lowestKey_eq_some j hlow
    have hkj : ¬ k < j := fun h => absurd (hk.symm.trans (hbelowj k h)) (by decide)
    have hjk : ¬ j < k := fun h => absurd (hj.symm.trans (hbelow j h)) (by decide)
    rw [le_antisymm (not_lt.1 hkj) (not_lt.1 hjk)]

/-- Settles O38: the key captured is the lowest, and its number fits a byte. -/
theorem keyWaitTakesLowestPressedKey : Obligations.KeyWaitTakesLowestPressedKey := by
  refine fun x s => ⟨decodeWord_of_encode_eq (formatXkk_eq_pattern 0xF#4 x 0x0A#8), fun k hk hbelow => ?_,
    fun hkeys => by rw [exec, execLdVxK, s.lowestKey_eq_none.2 hkeys]⟩
  refine ⟨(s.setReg x (BitVec.ofNat 8 k.val)).advance,
    by rw [exec, execLdVxK, s.lowestKey_of_lowest hk hbelow], ?_, advance_setReg_frame s x _⟩
  rw [State.reg_advance, State.reg_setReg_self, BitVec.toNat_ofNat]
  omega

end Sys2Proof.Machine
end

section
/-! The display (43_display.md sections 1 and 2). A sprite is the plot of its points, all of different pixels
(Laws/Display.lean), and its points are the pixels it covers; so a draw inverts what it covers and a second draw
inverts it back. -/

namespace Sys2Proof.Machine

/-- Settles O34: every pixel of the blank buffer is 0. -/
theorem clearBlanksTheDisplay : Obligations.ClearBlanksTheDisplay := fun s =>
  ⟨decodeWord_encode .cls, _, rfl, fun px py _ _ => Framebuffer.pixel_blank px py, rfl,
    BitVec.toNat_add s.pc 2, rfl, fun _ => rfl⟩

/-! ### What one sprite does to every pixel -/

section
variable (s : State) (x0 y0 n : Nat)

/-- A covered pixel is a point of the sprite, its coordinates reduced (R150). -/
theorem spriteCovers_iff (px py : Nat) :
    spriteCovers s x0 y0 n px py ↔ ∃ p ∈ spritePoints s x0 y0 n, px = p.1 % 64 ∧ py = p.2 % 32 := by
  simp only [spriteCovers, mem_spritePoints]
  constructor
  · rintro ⟨r, hr, c, hc, hbit, hpx, hpy⟩
    exact ⟨_, ⟨r, hr, c, hc, hbit, rfl⟩, hpx, hpy⟩
  · rintro ⟨_, ⟨r, hr, c, hc, hbit, rfl⟩, hpx, hpy⟩
    exact ⟨r, hr, c, hc, hbit, hpx, hpy⟩

variable {s x0 y0 n}

theorem spriteCovers_onScreen {px py : Nat} (h : spriteCovers s x0 y0 n px py) : px < 64 ∧ py < 32 := by
  obtain ⟨_, _, _, _, _, rfl, rfl⟩ := h
  omega

variable (hn : n ≤ 32) {px py : Nat}
include hn

theorem pixel_drawSprite_of_covers (h : spriteCovers s x0 y0 n px py) :
    (s.drawSprite x0 y0 n).fb.pixel px py = !s.fb.pixel px py := by
  obtain ⟨p, hp, rfl, rfl⟩ := (spriteCovers_iff s x0 y0 n px py).1 h
  rw [State.drawSprite_eq_plotAll, Blit.pixel_plotAll _ _ (apart_spritePoints s x0 y0 n hn),
    decide_eq_true ⟨p, hp, by omega⟩, Bool.xor_true]

theorem pixel_drawSprite_of_not_covers (hx : px < 64) (hy : py < 32) (h : ¬ spriteCovers s x0 y0 n px py) :
    (s.drawSprite x0 y0 n).fb.pixel px py = s.fb.pixel px py := by
  rw [State.drawSprite_eq_plotAll, Blit.pixel_plotAll _ _ (apart_spritePoints s x0 y0 n hn), decide_eq_false,
    Bool.xor_false]
  rintro ⟨p, hp, hpx, hpy⟩
  exact h ((spriteCovers_iff s x0 y0 n px py).2 ⟨p, hp, by omega⟩)

/-- A draw collides exactly where a covered pixel was set. -/
theorem hit_drawSprite :
    (s.drawSprite x0 y0 n).hit = true ↔
      ∃ px py : Nat, spriteCovers s x0 y0 n px py ∧ s.fb.pixel px py = true := by
  rw [State.drawSprite_eq_plotAll, Blit.hit_plotAll _ _ (apart_spritePoints s x0 y0 n hn), Bool.false_or,
    decide_eq_true_iff]
  constructor
  · rintro ⟨p, hp, hset⟩
    exact ⟨p.1 % 64, p.2 % 32, (spriteCovers_iff s x0 y0 n _ _).2 ⟨p, hp, rfl, rfl⟩,
      (s.fb.pixel_mod p.1 p.2).trans hset⟩
  · rintro ⟨px, py, hcov, hset⟩
    obtain ⟨p, hp, rfl, rfl⟩ := (spriteCovers_iff s x0 y0 n px py).1 hcov
    exact ⟨p, hp, (s.fb.pixel_mod p.1 p.2).symm.trans hset⟩

end

/-- Settles O35: at most 15 rows are drawn, so no pixel is visited twice. -/
theorem drawInvertsCoveredPixels : Obligations.DrawInvertsCoveredPixels := by
  intro x y n s
  have hn : n.val ≤ 32 := by omega
  have flag (b : Bool) (fb : Framebuffer) : ((s.showFb fb).setFlag b).advance.reg 15 = flagByte b :=
    (s.showFb fb).reg_setReg_self vf (flagByte b)
  refine ⟨decodeWord_of_encode_eq (formatXyn_eq_pattern 0xD#4 x y (BitVec.ofFin (w := 4) n)), _, rfl,
    fun px py hx hy => ⟨pixel_drawSprite_of_covers hn, pixel_drawSprite_of_not_covers hn hx hy⟩,
    fun hset => ?_, fun hclear => ?_, rfl, BitVec.toNat_add s.pc 2,
    fun r hr => (s.showFb _).reg_setReg_of_ne vf r _ hr, fun _ => rfl, rfl⟩
  · rw [flag, (hit_drawSprite hn).2 hset]
    rfl
  · rw [flag, Bool.eq_false_iff.2 (mt (hit_drawSprite hn).1 hclear)]
    rfl

/-- Settles O36: the second draw covers the same pixels, from the buffer that the first has inverted there. -/
theorem drawingTwiceRestoresTheDisplay : Obligations.DrawingTwiceRestoresTheDisplay := by
  intro x y n s t hx hy hst
  obtain ⟨-, t', ht', first, -, -, -, -, hreg, hbytes, hframe⟩ := drawInvertsCoveredPixels x y n s
  cases hst.symm.trans ht'
  obtain ⟨-, u, hu, second, hit, miss, hdirty, -⟩ := drawInvertsCoveredPixels x y n t
  have hi : t.i = s.i := by rw [hframe]
  have same (px py : Nat) : spriteCovers t (t.reg x).toNat (t.reg y).toNat n.val px py ↔
      spriteCovers s (s.reg x).toNat (s.reg y).toNat n.val px py := by
    simp only [spriteCovers, hreg x hx, hreg y hy, hi, hbytes _]
  refine ⟨u, hu, Framebuffer.ext_of_pixel _ _ fun px py hpx hpy => ?_, hdirty, ?_⟩
  · obtain ⟨first_in, first_out⟩ := first px py hpx hpy
    obtain ⟨second_in, second_out⟩ := second px py hpx hpy
    by_cases hcov : spriteCovers s (s.reg x).toNat (s.reg y).toNat n.val px py
    · rw [second_in ((same px py).2 hcov), first_in hcov, Bool.not_not]
    · rw [second_out (mt (same px py).1 hcov), first_out hcov]
  · have collides :
        (∃ px py : Nat, spriteCovers t (t.reg x).toNat (t.reg y).toNat n.val px py ∧ t.fb.pixel px py = true) ↔
        ∃ px py : Nat, spriteCovers s (s.reg x).toNat (s.reg y).toNat n.val px py ∧ s.fb.pixel px py = false := by
      refine exists₂_congr fun px py => ?_
      rw [same]
      refine and_congr_right fun hcov => ?_
      obtain ⟨hpx, hpy⟩ := spriteCovers_onScreen hcov
      rw [(first px py hpx hpy).1 hcov, Bool.not_eq_true']
    rw [← collides]
    refine ⟨fun hflag => ?_, hit⟩
    by_contra hnone
    exact absurd ((miss hnone).symm.trans hflag) (by decide)

end Sys2Proof.Machine
end

section
/-! Loads and reset (60_exceptions.md section 6; 70_reset_and_hazards.md sections 1 and 2; 10_state.md section 14).
A load that fits stores, and one that does not records a fault or is idle; a reset is two loads over the state after reset, so
each byte of it is read from the image, else from the font, else from the background. -/

namespace Sys2Proof.Machine

/-! ### The two outcomes of a load -/

section
variable {a : Word} {bytes : List Byte} (s : State)

theorem load_of_fits (h : a.toNat + bytes.length ≤ 4096) : load a bytes s = s.storeBytes a.toNat bytes :=
  if_pos (decide_eq_true h)

theorem not_loadFits (h : 4096 < a.toNat + bytes.length) : ¬ loadFits a.toNat bytes.length = true :=
  fun hfits => absurd (of_decide_eq_true hfits) (Nat.not_le.2 h)

/-- A load that passes 0xFFF halts a running core with its record (R176, R188). -/
theorem load_of_not_fits (h : 4096 < a.toNat + bytes.length) (hf : s.fault = none) :
    load a bytes s = { s with fault := some { cause := .loadFault, opcode := 0, pc := 0x0200 } } := by
  rw [load, if_neg (not_loadFits h), hf]

/-- On a halted core it changes nothing (R172). -/
theorem load_of_not_fits_of_halted (h : 4096 < a.toNat + bytes.length) {f : FaultRecord} (hf : s.fault = some f) :
    load a bytes s = s := by
  rw [load, if_neg (not_loadFits h), hf]

end

section
variable {s : State} (hm : s.mem.wf = true) {a : Nat} {bytes : List Byte} (hfit : a + bytes.length ≤ 4096)
include hm hfit

theorem readByte_storeBytes_inside {k : Nat} (hk : k < bytes.length) :
    (s.storeBytes a bytes).readByte (a + k) = bytes[k] :=
  s.mem.read_writeBytes_inside a k bytes hm (by omega) hk

/-- No address of the range wraps, so an address outside it is none of those stored. -/
theorem readByte_storeBytes_outside {b : Nat} (hb : b < 4096) (hout : b < a ∨ a + bytes.length ≤ b) :
    (s.storeBytes a bytes).readByte b = s.readByte b :=
  s.mem.read_writeBytes_outside a b bytes hm fun k hk => by omega

end

/-- Settles O44: the outcomes of a load, by whether it fits and whether a fault is recorded. -/
theorem loadWritesWholeOrFaults : Obligations.LoadWritesWholeOrFaults := by
  intro a bytes s hm
  refine ⟨fun hfit => ?_, fun hlong => load_of_not_fits s hlong,
    fun f hf => ⟨?_, fun hlong => load_of_not_fits_of_halted s hlong hf⟩⟩
  · rw [load_of_fits s hfit]
    exact ⟨fun k hk => readByte_storeBytes_inside hm hfit hk, fun b => readByte_storeBytes_outside hm hfit, rfl⟩
  · by_cases hfit : a.toNat + bytes.length ≤ 4096
    · rw [load_of_fits s hfit, State.storeBytes_fault, hf]
    · rw [load_of_not_fits_of_halted s (Nat.not_le.1 hfit) hf, hf]

/-! ### Reset -/

/-- Settles O45: every field of the record is a constant, and an unlisted address reads as the background. -/
theorem resetHoldsTheStatedValues : Obligations.ResetHoldsTheStatedValues := by
  refine ⟨fun r => Vector.getElem_replicate r.isLt, rfl, rfl, rfl, fun k hk => Vector.getElem_replicate hk, rfl, rfl,
    fun px py _ _ => Framebuffer.pixel_blank px py, rfl, fun k => Vector.getElem_replicate k.isLt, rfl,
    fun a ha => ?_⟩
  rw [read_reset, Nat.mod_eq_of_lt ha]
  rfl

/-- Past the font region reset leaves zeros (R38). -/
theorem readByte_reset_of_ge {a : Nat} (h80 : 80 ≤ a) (ha : a < 4096) : State.reset.readByte a = 0 := by
  rw [read_reset, Nat.mod_eq_of_lt ha]
  exact if_neg (Nat.not_lt.2 h80)

section
variable (font : Vector Byte 80)

/-- The state between the two loads of a reset: the font is installed. -/
def fontLoaded : State := State.reset.storeBytes 0 font.toList

theorem wf_fontLoaded : (fontLoaded font).mem.wf = true := Memory.wf_writeBytes _ _ _ wf_reset

theorem readByte_fontLoaded_of_lt {a : Nat} (ha : a < 80) : (fontLoaded font).readByte a = font[a] := by
  have hstored := readByte_storeBytes_inside wf_reset (a := 0) (bytes := font.toList) (k := a) (by simp) (by simpa)
  rw [Nat.zero_add] at hstored
  exact hstored.trans (Vector.getElem_toList _)

theorem readByte_fontLoaded_of_ge {a : Nat} (h80 : 80 ≤ a) (ha : a < 4096) : (fontLoaded font).readByte a = 0 :=
  (readByte_storeBytes_outside wf_reset (a := 0) (bytes := font.toList) (by simp) ha (by simp [h80])).trans
    (readByte_reset_of_ge h80 ha)

/-- The font always fits, so a reset is the image's load over it. -/
theorem resetWith_eq (image : List Byte) : resetWith font image = load 0x0200 image (fontLoaded font) :=
  congrArg (load 0x0200 image) (load_of_fits State.reset (by simp))

end

/-- Settles O46: an address is in the image, else in the font, else in neither; an image too long is a load that
does not fit, on a core that is not halted. -/
theorem resetInstallsFontAndImage : Obligations.ResetInstallsFontAndImage := by
  intro font image
  have hwf := wf_fontLoaded font
  rw [resetWith_eq]
  refine ⟨fun hlen => ?_, fun hlong => ?_⟩
  · have hfit : 0x200 + image.length ≤ 4096 := by omega
    rw [load_of_fits (a := 0x0200) (bytes := image) _ hfit]
    refine ⟨rfl, Memory.wf_writeBytes _ _ _ hwf, fun a ha => ?_, fun a h80 ha => ?_, fun a hlow ha => ?_⟩
    · rw [← readByte_fontLoaded_of_lt font ha]
      exact readByte_storeBytes_outside hwf hfit (by omega) (.inl (by omega))
    · rw [← readByte_fontLoaded_of_ge font h80 (by omega)]
      exact readByte_storeBytes_outside hwf hfit (by omega) (.inl ha)
    · obtain ⟨k, rfl⟩ := Nat.exists_eq_add_of_le hlow
      rw [Nat.add_sub_cancel_left]
      by_cases hk : k < image.length
      · rw [List.getD_eq_getElem _ _ hk]
        exact readByte_storeBytes_inside hwf hfit hk
      · rw [List.getD_eq_default _ _ (Nat.not_lt.1 hk), ← readByte_fontLoaded_of_ge font (by omega) ha]
        exact readByte_storeBytes_outside hwf hfit ha (.inr (by omega))
  · rw [load_of_not_fits (a := 0x0200) (bytes := image) (fontLoaded font) (by simp; omega) rfl]
    exact ⟨rfl, step_of_halted _ _ rfl⟩

end Sys2Proof.Machine
end
